-- ==== Sys2Proof/Word.lean ====
section
/-! DEFINITION. The word types of the EMU-8 CORE (00_scope.md rules R7, R9): bytes, 16-bit words, the 12-bit
address immediate, and the 4-bit indexes of registers and keys. Every value is unsigned (rule R9). -/

namespace Sys2Proof

/-- An 8-bit value: a general register, a timer, a byte of memory, the immediate `nn`. -/
abbrev Byte := BitVec 8

/-- A 16-bit value: the program counter, the address register, a stack entry, an instruction word. -/
abbrev Word := BitVec 16

/-- The 12-bit address immediate `nnn` (30_encoding.md rule R71). -/
abbrev Addr12 := BitVec 12

/-- A general register's index, 0 to 15, written V0 to VF (10_state.md rule R20). -/
abbrev RegIdx := Fin 16

/-- A logical key's index, 0 to 15 (10_state.md rule R35). -/
abbrev KeyIdx := Fin 16

end Sys2Proof
end

