-- ==== Sys2Proof/Config.lean ====
section
/-! DEFINITION. What is fixed for a machine and what the spec leaves free (00_scope.md rule R8).

The parameter GLYPH_FONT is an argument of the host port that initialises the machine (Machine/Ports.lean) and its
default is `Machine.standardFont` (Machine/Memory.lean). The parameter GLYPH_WRITE is a field of State that nothing
writes after initialisation. The three draws are the constants below, which have no body: nothing can prove which
value one of them takes, so a claim about a draw holds for every value (notes/assumptions 3 to 5). -/

namespace Sys2Proof

/-- The parameter GLYPH_WRITE (20_memory.md rule R67): what a program store into the glyph table does. -/
inductive GlyphWrite where
  /-- the default: such a store raises the GlyphWrite fault -/
  | fault
  /-- such a store writes memory like any other -/
  | write
deriving DecidableEq, Repr

/-- RND_BYTE, `draw_byte()` (42_alu.md rule R121): the byte of the n-th draw, any 8-bit value. -/
opaque Config.drawByte : Nat → Byte

/-- RET_UNDERFLOW_PC, `draw_pc()` (41_control_flow.md rule R100): the address of the n-th draw, any 16-bit value. -/
opaque Config.drawPc : Nat → Word

/-- WAIT_KEY_CHOICE, `draw_key(D)` (46_keyboard.md rule R162): a free number from which the n-th draw chooses one of
the keys that are down; the limit the rule sets (a key of D) is kept by `Machine.chooseKey`. -/
opaque Config.drawKey : Nat → Nat

end Sys2Proof
end

