-- ==== Sys2Proof/Machine/State.lean ====
section
/-! DEFINITION. The machine's state (10_state.md) as plain data, the reasons a step can stop, and the state after reset
(70_reset_and_hazards.md rule R190).

The first twelve fields of State are the spec's own state record. The last three are the model's (notes/assumptions 2
to 6): the parameter GLYPH_WRITE, the count of draws taken, and the diagnostic reports of the recoverable conditions. -/

namespace Sys2Proof.Machine

/-- The fault kinds of 60_exceptions.md rule R170, codes 3 to 6. Raising one is an effect the spec gives (rule R172): the
step answers a NEXT state whose fault record holds the kind and which is otherwise unchanged, so no step of this model
answers `Host.Outcome.fault`. -/
inductive Fault where
  /-- code 3, raised by the fetch at pc > 0xFFE (rule R91); safe: it records the spec's own fault -/
  | fetchOutOfBounds
  /-- code 4, raised by LD B, LD [I] and LD Vx,[I] over a range past 0xFFF (rule R134); safe: it records the spec's own fault -/
  | memoryOutOfBounds
  /-- code 5, raised by ADD I,Vx with a sum above 0xFFFF (rule R131); safe: it records the spec's own fault -/
  | addressOverflow
  /-- code 6, raised by LD B and LD [I] over a range that meets the glyph table when GLYPH_WRITE is `fault` (rule R67);
  safe: it records the spec's own fault -/
  | glyphWrite
deriving DecidableEq, Repr

/-- Why an instruction has no meaning. No step of this model answers one: every instruction is modelled. -/
inductive Refusal where
  /-- raised by no arm of this model: kept for an instruction without a meaning; safe: the machine stops -/
  | notModelled (mnemonic : String)
deriving DecidableEq, Repr

/-- The keyboard-wait latch (10_state.md rule R36). -/
inductive Wait where
  /-- not waiting, or waiting with no key identified -/
  | idle
  /-- waiting for the release of the key -/
  | armed (k : KeyIdx)
deriving DecidableEq, Repr

/-- A diagnostic of a recoverable condition (60_exceptions.md rules R170, R171), codes 1 and 2. Nothing reads one. -/
inductive Report where
  /-- code 1: the unknown word at pc (40_execution_cycle.md rule R95) -/
  | unknownInstruction (pc word : Word)
  /-- code 2: RET at pc with an empty call stack (41_control_flow.md rule R100) -/
  | stackUnderflow (pc : Word)
deriving DecidableEq, Repr

/-- Memory (20_memory.md rule R50) as the bytes that differ from the standard reset contents, addresses rising. What an
unlisted address reads as is `Memory.unlisted` (Machine/Memory.lean). -/
abbrev Memory := List Host.Cell

/-- The display (10_state.md rule R33): 64 columns of 32 cells, `true` for on. -/
abbrev Display := Vector (Vector Bool 32) 64

/-- The state record of 10_state.md, and after it the model's own three fields. -/
structure State where
  /-- V0 to VF (rule R20) -/
  v : Vector Byte 16
  /-- I, the address register (rule R27) -/
  i : Word
  /-- pc, the program counter (rule R24) -/
  pc : Word
  /-- the call stack, top first, unbounded (rule R30) -/
  stack : List Word
  /-- DT, the delay timer (rule R32) -/
  dt : Byte
  /-- ST, the sound timer (rule R32) -/
  st : Byte
  /-- memory (20_memory.md rule R50) -/
  mem : Memory
  /-- the display buffer (rule R33) -/
  disp : Display
  /-- the dirty flag (rule R34) -/
  dirty : Bool
  /-- the input state, `true` for down (rule R35) -/
  keys : Vector Bool 16
  /-- the keyboard-wait latch (rule R36) -/
  wait : Wait
  /-- the fault record (rule R37) -/
  fault : Option Fault
  /-- MODEL: the parameter GLYPH_WRITE of this machine (20_memory.md rule R67); nothing writes it -/
  glyphWrite : GlyphWrite
  /-- MODEL: how many draws have been taken (00_scope.md rule R8) -/
  draws : Nat
  /-- MODEL: the diagnostic reports so far, newest first (60_exceptions.md rule R171) -/
  reports : List Report
deriving DecidableEq, Repr

/-- Every cell off. -/
def Display.blank : Display := Vector.replicate 64 (Vector.replicate 32 false)

/-- The state after `initialize()` (70_reset_and_hazards.md rule R190, 10_state.md rule R41) with the default parameters
of 00_scope.md rule R8: memory lists nothing, since its reset contents are what an unlisted address reads as. DESIGN
CHOICE: the values of decisions D22 and D28 and of the model's own fields (notes/assumptions 13). -/
def State.reset : State where
  v := Vector.replicate 16 0
  i := 0
  pc := 0x200
  stack := []
  dt := 0
  st := 0
  mem := []
  disp := Display.blank
  dirty := false
  keys := Vector.replicate 16 false
  wait := .idle
  fault := none
  glyphWrite := .fault
  draws := 0
  reports := []

end Sys2Proof.Machine
end

