-- ==== Sys2Proof/Machine/Memory.lean ====
section
/-! DEFINITION. Memory: its extent, what an unlisted address reads as, reading and writing bytes, and the canonical form
(20_memory.md). Every access is one byte wide (rule R57); no address has a side effect (rule R60). -/

namespace Sys2Proof.Machine

/-- MEM_SIZE (00_scope.md rule R7). -/
abbrev memSize : Nat := 4096

/-- GLYPH_BASE (00_scope.md rule R7). -/
abbrev glyphBase : Nat := 0x050

/-- The last address of the glyph table (20_memory.md rule R51). -/
abbrev glyphLast : Nat := 0x09F

/-- PROGRAM_START (00_scope.md rule R7). -/
abbrev programStart : Nat := 0x200

/-- Glyphs 0 to 3 (20_memory.md rule R53). -/
def glyphs0to3 : List Byte :=
  [0xF0, 0x90, 0x90, 0x90, 0xF0] ++ [0x20, 0x60, 0x20, 0x20, 0x70] ++
  [0xF0, 0x10, 0xF0, 0x80, 0xF0] ++ [0xF0, 0x10, 0xF0, 0x10, 0xF0]

/-- Glyphs 4 to 7 (20_memory.md rule R53). -/
def glyphs4to7 : List Byte :=
  [0x90, 0x90, 0xF0, 0x10, 0x10] ++ [0xF0, 0x80, 0xF0, 0x10, 0xF0] ++
  [0xF0, 0x80, 0xF0, 0x90, 0xF0] ++ [0xF0, 0x10, 0x20, 0x40, 0x40]

/-- Glyphs 8 to B (20_memory.md rule R53). -/
def glyphs8toB : List Byte :=
  [0xF0, 0x90, 0xF0, 0x90, 0xF0] ++ [0xF0, 0x90, 0xF0, 0x10, 0xF0] ++
  [0xF0, 0x90, 0xF0, 0x90, 0x90] ++ [0xE0, 0x90, 0xE0, 0x90, 0xE0]

/-- Glyphs C to F (20_memory.md rule R53). -/
def glyphsCtoF : List Byte :=
  [0xF0, 0x80, 0x80, 0x80, 0xF0] ++ [0xE0, 0x90, 0x90, 0x90, 0xE0] ++
  [0xF0, 0x80, 0xF0, 0x80, 0xF0] ++ [0xF0, 0x80, 0xF0, 0x80, 0x80]

/-- The default of GLYPH_FONT (20_memory.md rule R53): 16 glyphs of 5 bytes. -/
def standardFont : List Byte := glyphs0to3 ++ glyphs4to7 ++ glyphs8toB ++ glyphsCtoF

/-- What an address that memory does not list reads as: the reset contents with the default font
(70_reset_and_hazards.md rule R190, 20_memory.md rules R51, R53). DESIGN CHOICE: the form (notes/assumptions 1). PRESUMED:
the font (notes/assumptions 12). -/
def Memory.unlisted (a : Nat) : Byte :=
  if glyphBase ≤ a then standardFont.getD (a - glyphBase) 0 else 0

/-- The byte at an address of the extent. -/
def Memory.read : Memory → Nat → Byte
  | [], a => Memory.unlisted a
  | c :: m, a => if c.1 = a then c.2 else Memory.read m a

/-- Puts an entry for the address at its place. -/
def Memory.insert (a : Nat) (b : Byte) : Memory → Memory
  | [] => [(a, b)]
  | c :: m => if a < c.1 then (a, b) :: c :: m else if a = c.1 then (a, b) :: m else c :: Memory.insert a b m

/-- Takes every entry for the address away. -/
def Memory.erase (a : Nat) : Memory → Memory
  | [] => []
  | c :: m => if c.1 = a then Memory.erase a m else c :: Memory.erase a m

/-- `MemWrite(a, 1, b)` (00_scope.md rule R10) in canonical form: the value an unlisted address reads as is not listed.
There is no byte outside the extent to write (20_memory.md rule R56); every instruction has checked before. -/
def Memory.write (m : Memory) (a : Nat) (b : Byte) : Memory :=
  if a < memSize then if b = Memory.unlisted a then Memory.erase a m else Memory.insert a b m else m

/-- Writes bytes at rising addresses, the first one first. -/
def Memory.writeBytes (m : Memory) (a : Nat) : List Byte → Memory
  | [] => m
  | b :: bs => Memory.writeBytes (Memory.write m a b) (a + 1) bs

/-- `MemRead(a, 1)`, defined only for addresses of the extent (00_scope.md rule R10, 20_memory.md rule R56). -/
def Memory.read? (m : Memory) (a : Nat) : Option Byte :=
  if a < memSize then some (Memory.read m a) else none

/-- The canonical form: addresses rising, all in the extent, and no entry equal to what an unlisted address reads as. -/
abbrev Memory.wf (m : Memory) : Prop :=
  m.Pairwise (fun c d => c.1 < d.1) ∧ ∀ c ∈ m, c.1 < memSize ∧ c.2 ≠ Memory.unlisted c.1

end Sys2Proof.Machine
end

