-- ==== Sys2Proof/Machine/Operands.lean ====
section
/-! DEFINITION. The operand forms: what the instructions compute from register values and immediates before they touch
the state (42_alu.md to 46_keyboard.md). Arithmetic is exact over naturals and narrowed once (00_scope.md rule R10). -/

namespace Sys2Proof.Machine

/-- `zext_16` of a 12-bit value (00_scope.md rule R10). -/
def zext12 (a : Addr12) : Word := a.setWidth 16

/-- `zext_16` of an 8-bit value (00_scope.md rule R10). -/
def zext8 (b : Byte) : Word := b.setWidth 16

/-- VF's index (10_state.md rule R22). -/
def flagReg : RegIdx := 15

/-- Every register index, rising. -/
def allRegs : List RegIdx := [0, 1, 2, 3, 4, 5, 6, 7, 8, 9, 10, 11, 12, 13, 14, 15]

/-- The registers V0 to Vx of LD [I],Vx and LD Vx,[I] (43_address_memory.md rules R135, R136). -/
def regsUpTo (x : RegIdx) : List RegIdx := allRegs.take (x.val + 1)

/-- `value AND 0x0F` as an index (43_address_memory.md rule R132, 46_keyboard.md rule R160). -/
def lowNibble (b : Byte) : Fin 16 := ⟨b.toNat % 16, Nat.mod_lt _ (by decide)⟩

/-- The address of a glyph, `GLYPH_BASE + 5 * digit` (43_address_memory.md rule R132). -/
def glyphAddr (d : Fin 16) : Word := BitVec.ofNat 16 (glyphBase + 5 * d.val)

/-- `nnn + V0`, not masked (41_control_flow.md rule R107). -/
def offsetTarget (nnn : Addr12) (v0 : Byte) : Word := zext12 nnn + zext8 v0

/-- The hundreds, tens and units digits (43_address_memory.md rule R133). -/
def bcdDigits (b : Byte) : List Byte :=
  [BitVec.ofNat 8 (b.toNat / 100), BitVec.ofNat 8 (b.toNat / 10 % 10), BitVec.ofNat 8 (b.toNat % 10)]

/-- The start column of a sprite, `V[x] AND 63` (44_display.md rule R142). -/
def startCol (b : Byte) : Nat := (b &&& 63).toNat

/-- The start row of a sprite, `V[y] AND 31` (44_display.md rule R142). -/
def startRow (b : Byte) : Nat := (b &&& 31).toNat

/-- The sprite bit of a column, the most significant bit being column 0 (44_display.md rule R141). -/
def spriteBit (b : Byte) (col : Nat) : Bool := b.getMsbD col

/-- A key of those that are down, chosen by the free number (46_keyboard.md rule R162, WAIT_KEY_CHOICE). Where only one
is down there is nothing to choose. -/
def chooseKey (k : KeyIdx) (ks : List KeyIdx) (r : Nat) : KeyIdx :=
  match ks with
  | [] => k
  | _ => (k :: ks).getD (r % (ks.length + 1)) k

/-- The store range meets the glyph table (20_memory.md rule R67, `GlyphCheck`). -/
def meetsGlyphs (lo hi : Nat) : Bool := decide (lo ≤ glyphLast) && decide (glyphBase ≤ hi)

end Sys2Proof.Machine
end

