-- ==== Sys2Proof/Machine/Flags.lean ====
section
/-! DEFINITION. The flag computations: every value that is written to VF as a flag (10_state.md rule R22). -/

namespace Sys2Proof.Machine

/-- A flag as the byte VF holds. -/
def flagByte (c : Bool) : Byte := if c then 1 else 0

/-- ADD Vx,Vy: 1 when the unsigned sum exceeds 255 (42_alu.md rule R116). -/
def carryOut (a b : Byte) : Bool := decide (a.toNat + b.toNat > 255)

/-- `a - b`: 1 when no borrow occurs, a ≥ b (42_alu.md rules R117, R119). -/
def noBorrow (a b : Byte) : Bool := decide (a.toNat ≥ b.toNat)

/-- SHR: the bit shifted out at the bottom (42_alu.md rule R118). -/
def outBottom (a : Byte) : Bool := a.getLsbD 0

/-- SHL: the bit shifted out at the top (42_alu.md rule R120). -/
def outTop (a : Byte) : Bool := a.getLsbD 7

end Sys2Proof.Machine
end

