-- ==== Sys2Proof/Machine/Ops.lean ====
section
/-! DEFINITION. The named operations over registers, memory, display and keys that the meanings are made of, and raising
a fault (60_exceptions.md rule R172). There is no return from a fault (rule R176). -/

namespace Sys2Proof.Machine

/-- The result type of a meaning. -/
abbrev Result := Host.Outcome State Fault Refusal

/-- `V[r]` (00_scope.md rule R10). -/
def State.reg (s : State) (r : RegIdx) : Byte := s.v[r.val]

/-- `V[r] <- b` (00_scope.md rule R10). -/
def State.setReg (s : State) (r : RegIdx) (b : Byte) : State := { s with v := s.v.set r.val b }

/-- `VF <- c` (10_state.md rule R22). -/
def State.setFlag (s : State) (c : Bool) : State := s.setReg flagReg (flagByte c)

/-- `keys[k]` (10_state.md rule R35). -/
def State.key (s : State) (k : KeyIdx) : Bool := s.keys[k.val]

/-- `pc <- pc + 2` (40_execution_cycle.md rule R94, advance). -/
def State.advance (s : State) : State := { s with pc := s.pc + 2 }

/-- `pc <- pc + 4` if the condition holds, else `pc + 2` (40_execution_cycle.md rule R94, skip). -/
def State.skipIf (s : State) (c : Bool) : State := { s with pc := if c then s.pc + 4 else s.pc + 2 }

/-- `report` of a recoverable condition (60_exceptions.md rule R171). -/
def State.report (s : State) (r : Report) : State := { s with reports := r :: s.reports }

/-- One draw has been taken. -/
def State.drawn (s : State) : State := { s with draws := s.draws + 1 }

/-- `raise Fault(kind)`: the fault record is written and nothing else (60_exceptions.md rule R172). -/
def raiseFault (k : Fault) (s : State) : Result := .next { s with fault := some k }

/-- A result and a flag: the result first, the flag last (10_state.md rule R23), then pc + 2. -/
def State.writeBack (s : State) (x : RegIdx) (b : Byte) (c : Bool) : State := ((s.setReg x b).setFlag c).advance

/-- A store of bytes at `I` to `I + k`: the bounds check, then the glyph check, then the writes, then pc + 2
(43_address_memory.md rules R133 to R135, 20_memory.md rule R67, 60_exceptions.md rule R174). -/
def storeAtI (bs : List Byte) (s : State) : Result :=
  if s.i.toNat + bs.length > memSize then raiseFault .memoryOutOfBounds s
  else if s.glyphWrite = .fault ∧ meetsGlyphs s.i.toNat (s.i.toNat + bs.length - 1) then raiseFault .glyphWrite s
  else .next { s with mem := s.mem.writeBytes s.i.toNat bs }.advance

/-- The registers with those listed loaded from `base` plus their index, in the list's order (43_address_memory.md rule
R136). -/
def loadFrom (m : Memory) (base : Nat) : List RegIdx → Vector Byte 16 → Vector Byte 16
  | [], v => v
  | r :: rs, v => loadFrom m base rs (v.set r.val (m.read (base + r.val)))

/-- The keys that are down, rising (46_keyboard.md rule R162, the set D). -/
def State.keysDown (s : State) : List KeyIdx := allRegs.filter s.key

/-- `disp[cx][cy]` (00_scope.md rule R10). -/
def Display.cell (d : Display) (cx : Fin 64) (cy : Fin 32) : Bool := d[cx.val][cy.val]

/-- `disp[cx][cy] <- b` (00_scope.md rule R10). -/
def Display.setCell (d : Display) (cx : Fin 64) (cy : Fin 32) (b : Bool) : Display :=
  d.set cx.val (d[cx.val].set cy.val b)

/-- A display being drawn on, and whether a cell has been turned from on to off so far. -/
structure Canvas where
  disp : Display
  hit : Bool
deriving DecidableEq, Repr

/-- A 1 bit of the sprite at a cell: on becomes off and counts as a collision, off becomes on (44_display.md rule R142). -/
def Canvas.toggle (c : Canvas) (cx : Fin 64) (cy : Fin 32) : Canvas :=
  if c.disp.cell cx cy then { disp := c.disp.setCell cx cy false, hit := true }
  else { c with disp := c.disp.setCell cx cy true }

/-- The columns listed of one sprite row, left to right, until the right edge (44_display.md rule R142). -/
def drawCols (b : Byte) (cx0 : Nat) (cy : Fin 32) : List Nat → Canvas → Canvas
  | [], c => c
  | col :: cols, c =>
    if h : cx0 + col < 64 then
      drawCols b cx0 cy cols (if spriteBit b col then c.toggle ⟨cx0 + col, h⟩ cy else c)
    else c

/-- The columns of a sprite row (44_display.md rule R141). -/
def spriteCols : List Nat := [0, 1, 2, 3, 4, 5, 6, 7]

/-- The rows listed of a sprite, top to bottom, until the bottom edge or the memory extent (44_display.md rule R142). -/
def drawRows (m : Memory) (base cx0 cy0 : Nat) : List Nat → Canvas → Canvas
  | [], c => c
  | row :: rows, c =>
    if h : cy0 + row < 32 then
      match m.read? (base + row) with
      | some b => drawRows m base cx0 cy0 rows (drawCols b cx0 ⟨cy0 + row, h⟩ spriteCols c)
      | none => c
    else c

end Sys2Proof.Machine
end

