-- ==== Sys2Proof/Machine/AddressMemory.lean ====
section
/-! DEFINITION. Address register and memory instructions (43_address_memory.md). The one addressing mode is memory at I
plus a small index; no access modifies I (rule R137). -/

namespace Sys2Proof.Machine

/-- LD I, nnn (R130). -/
def execLdI (nnn : Addr12) (s : State) : Result := .next { s with i := zext12 nnn }.advance

/-- ADD I, Vx (R131): no masking to 12 bits and no flag; a sum that does not fit 16 bits faults. -/
def execAddI (x : RegIdx) (s : State) : Result :=
  if s.i.toNat + (s.reg x).toNat > 0xFFFF then raiseFault .addressOverflow s
  else .next { s with i := BitVec.ofNat 16 (s.i.toNat + (s.reg x).toNat) }.advance

/-- LD F, Vx (R132). -/
def execLdF (x : RegIdx) (s : State) : Result := .next { s with i := glyphAddr (lowNibble (s.reg x)) }.advance

/-- LD B, Vx (R133). -/
def execLdB (x : RegIdx) (s : State) : Result := storeAtI (bcdDigits (s.reg x)) s

/-- LD [I], Vx (R135). -/
def execStoreRegs (x : RegIdx) (s : State) : Result := storeAtI ((regsUpTo x).map s.reg) s

/-- LD Vx, [I] (R136): loads from the glyph table are allowed (20_memory.md rule R67). -/
def execLoadRegs (x : RegIdx) (s : State) : Result :=
  if s.i.toNat + x.val + 1 > memSize then raiseFault .memoryOutOfBounds s
  else .next { s with v := loadFrom s.mem s.i.toNat (regsUpTo x) s.v }.advance

end Sys2Proof.Machine
end

