-- ==== Sys2Proof/Machine/Alu.lean ====
section
/-! DEFINITION. Register and ALU instructions (42_alu.md). None raises a fault; every one ends with pc + 2; operands are
read before any write and a flag is written last (10_state.md rule R23). -/

namespace Sys2Proof.Machine

/-- LD Vx, nn (R110). -/
def execLdImm (x : RegIdx) (nn : Byte) (s : State) : Result := .next (s.setReg x nn).advance

/-- ADD Vx, nn (R111): no flag. -/
def execAddImm (x : RegIdx) (nn : Byte) (s : State) : Result := .next (s.setReg x (s.reg x + nn)).advance

/-- LD Vx, Vy (R112). -/
def execLdReg (x y : RegIdx) (s : State) : Result := .next (s.setReg x (s.reg y)).advance

/-- OR Vx, Vy (R113): VF is not cleared. -/
def execOrReg (x y : RegIdx) (s : State) : Result := .next (s.setReg x (s.reg x ||| s.reg y)).advance

/-- AND Vx, Vy (R114): VF is not cleared. -/
def execAndReg (x y : RegIdx) (s : State) : Result := .next (s.setReg x (s.reg x &&& s.reg y)).advance

/-- XOR Vx, Vy (R115): VF is not cleared. -/
def execXorReg (x y : RegIdx) (s : State) : Result := .next (s.setReg x (s.reg x ^^^ s.reg y)).advance

/-- ADD Vx, Vy (R116). -/
def execAddReg (x y : RegIdx) (s : State) : Result :=
  .next (s.writeBack x (s.reg x + s.reg y) (carryOut (s.reg x) (s.reg y)))

/-- SUB Vx, Vy (R117). -/
def execSub (x y : RegIdx) (s : State) : Result :=
  .next (s.writeBack x (s.reg x - s.reg y) (noBorrow (s.reg x) (s.reg y)))

/-- SHR Vx (R118): the source is V[x]. -/
def execShr (x : RegIdx) (s : State) : Result := .next (s.writeBack x (s.reg x >>> 1) (outBottom (s.reg x)))

/-- SUBN Vx, Vy (R119). -/
def execSubn (x y : RegIdx) (s : State) : Result :=
  .next (s.writeBack x (s.reg y - s.reg x) (noBorrow (s.reg y) (s.reg x)))

/-- SHL Vx (R120): the source is V[x]. -/
def execShl (x : RegIdx) (s : State) : Result := .next (s.writeBack x (s.reg x <<< 1) (outTop (s.reg x)))

/-- RND Vx, nn (R121): the byte is the draw RND_BYTE, a fresh one each time. -/
def execRnd (x : RegIdx) (nn : Byte) (s : State) : Result :=
  .next (s.drawn.setReg x (Config.drawByte s.draws &&& nn)).advance

end Sys2Proof.Machine
end

