-- ==== Sys2Proof/Machine/ControlFlow.lean ====
section
/-! DEFINITION. Control flow: return, jumps, call and the register skips (41_control_flow.md). -/

namespace Sys2Proof.Machine

/-- RET (R100). On an empty stack the next pc is the draw RET_UNDERFLOW_PC and the underflow is reported. -/
def execRet (s : State) : Result :=
  match s.stack with
  | top :: rest => .next { s with pc := top, stack := rest }
  | [] => .next { (s.report (.stackUnderflow s.pc)).drawn with pc := Config.drawPc s.draws }

/-- JP nnn (R101). -/
def execJp (nnn : Addr12) (s : State) : Result := .next { s with pc := zext12 nnn }

/-- CALL nnn (R102). -/
def execCall (nnn : Addr12) (s : State) : Result :=
  .next { s with pc := zext12 nnn, stack := (s.pc + 2) :: s.stack }

/-- SE Vx, nn (R103). -/
def execSeImm (x : RegIdx) (nn : Byte) (s : State) : Result := .next (s.skipIf (s.reg x == nn))

/-- SNE Vx, nn (R104). -/
def execSneImm (x : RegIdx) (nn : Byte) (s : State) : Result := .next (s.skipIf (s.reg x != nn))

/-- SE Vx, Vy (R105). -/
def execSeReg (x y : RegIdx) (s : State) : Result := .next (s.skipIf (s.reg x == s.reg y))

/-- SNE Vx, Vy (R106). -/
def execSneReg (x y : RegIdx) (s : State) : Result := .next (s.skipIf (s.reg x != s.reg y))

/-- JP V0, nnn (R107). -/
def execJpV0 (nnn : Addr12) (s : State) : Result := .next { s with pc := offsetTarget nnn (s.reg 0) }

end Sys2Proof.Machine
end

