-- ==== Sys2Proof/Machine/Keyboard.lean ====
section
/-! DEFINITION. Keyboard instructions and the keyboard-wait state machine (46_keyboard.md). -/

namespace Sys2Proof.Machine

/-- SKP Vx (R160). -/
def execSkp (x : RegIdx) (s : State) : Result := .next (s.skipIf (s.key (lowNibble (s.reg x))))

/-- SKNP Vx (R161). -/
def execSknp (x : RegIdx) (s : State) : Result := .next (s.skipIf (!s.key (lowNibble (s.reg x))))

/-- LD Vx, K (R162, R163): hold while Idle with no key down, arm a key that is down and hold, hold while the armed key is
down, complete when it is up. A held step is a step (R164). -/
def execLdVxK (x : RegIdx) (s : State) : Result :=
  match s.wait with
  | .idle =>
    match s.keysDown with
    | [] => .next s
    | k :: ks => .next { s.drawn with wait := .armed (chooseKey k ks (Config.drawKey s.draws)) }
  | .armed k => if s.key k then .next s else .next ({ s with wait := .idle }.setReg x k.val).advance

end Sys2Proof.Machine
end

