-- ==== Sys2Proof/Machine/Screen.lean ====
section
/-! DEFINITION. Display instructions (44_display.md). -/

namespace Sys2Proof.Machine

/-- CLS (R140). -/
def execCls (s : State) : Result := .next { s with disp := Display.blank, dirty := true }.advance

/-- What DRW draws: the sprite of n rows at I, from the start cell that V[x] and V[y] give, both read before VF is
cleared (R142). -/
def drawSprite (x y : RegIdx) (n : Fin 16) (s : State) : Canvas :=
  drawRows s.mem s.i.toNat (startCol (s.reg x)) (startRow (s.reg y)) (List.range n.val) { disp := s.disp, hit := false }

/-- DRW Vx, Vy, n (R142): VF reports a collision; the display is marked dirty whatever was drawn (R144). -/
def execDrw (x y : RegIdx) (n : Fin 16) (s : State) : Result :=
  .next ({ s with disp := (drawSprite x y n s).disp, dirty := true }.setFlag (drawSprite x y n s).hit).advance

end Sys2Proof.Machine
end

