-- ==== Sys2Proof/Machine/Timers.lean ====
section
/-! DEFINITION. Timer instructions (45_timers.md). The decrement is a host port (Machine/Ports.lean). -/

namespace Sys2Proof.Machine

/-- LD Vx, DT (R150). -/
def execLdVxDt (x : RegIdx) (s : State) : Result := .next (s.setReg x s.dt).advance

/-- LD DT, Vx (R151). -/
def execLdDtVx (x : RegIdx) (s : State) : Result := .next { s with dt := s.reg x }.advance

/-- LD ST, Vx (R152). -/
def execLdStVx (x : RegIdx) (s : State) : Result := .next { s with st := s.reg x }.advance

end Sys2Proof.Machine
end

