-- ==== Sys2Proof/Syntax.lean ====
section
/-! DEFINITION. The instruction set: one constructor per row of the opcode map (30_encoding.md rule R79), in the
map's order, with the operands the map's `fields` give the row. A nibble that a row ignores (rules R76, R77, R118,
R120) is no operand. -/

namespace Sys2Proof

/-- The 34 instructions (30_encoding.md rules R79, R82). -/
inductive Instr where
  /-- row 1, `0?E0` CLS: clear the display (R140) -/
  | cls
  /-- row 2, `0?EE` RET: return from subroutine (R100) -/
  | ret
  /-- row 3, `1nnn` JP nnn: jump (R101) -/
  | jp (nnn : Addr12)
  /-- row 4, `2nnn` CALL nnn: call subroutine (R102) -/
  | call (nnn : Addr12)
  /-- row 5, `3xnn` SE Vx, nn: skip if equal (R103) -/
  | seImm (x : RegIdx) (nn : Byte)
  /-- row 6, `4xnn` SNE Vx, nn: skip if not equal (R104) -/
  | sneImm (x : RegIdx) (nn : Byte)
  /-- row 7, `5xy?` SE Vx, Vy: skip if registers are equal (R105) -/
  | seReg (x y : RegIdx)
  /-- row 8, `6xnn` LD Vx, nn: load immediate (R110) -/
  | ldImm (x : RegIdx) (nn : Byte)
  /-- row 9, `7xnn` ADD Vx, nn: add immediate, no flag (R111) -/
  | addImm (x : RegIdx) (nn : Byte)
  /-- row 10, `8xy0` LD Vx, Vy: register copy (R112) -/
  | ldReg (x y : RegIdx)
  /-- row 11, `8xy1` OR Vx, Vy (R113) -/
  | orReg (x y : RegIdx)
  /-- row 12, `8xy2` AND Vx, Vy (R114) -/
  | andReg (x y : RegIdx)
  /-- row 13, `8xy3` XOR Vx, Vy (R115) -/
  | xorReg (x y : RegIdx)
  /-- row 14, `8xy4` ADD Vx, Vy: add with carry out (R116) -/
  | addReg (x y : RegIdx)
  /-- row 15, `8xy5` SUB Vx, Vy: subtract Y from X (R117) -/
  | sub (x y : RegIdx)
  /-- row 16, `8xy6` SHR Vx: shift right by one, y ignored (R118) -/
  | shr (x : RegIdx)
  /-- row 17, `8xy7` SUBN Vx, Vy: subtract X from Y (R119) -/
  | subn (x y : RegIdx)
  /-- row 18, `8xyE` SHL Vx: shift left by one, y ignored (R120) -/
  | shl (x : RegIdx)
  /-- row 19, `9xy?` SNE Vx, Vy: skip if registers are not equal (R106) -/
  | sneReg (x y : RegIdx)
  /-- row 20, `Annn` LD I, nnn: set the address register (R130) -/
  | ldI (nnn : Addr12)
  /-- row 21, `Bnnn` JP V0, nnn: jump with offset (R107) -/
  | jpV0 (nnn : Addr12)
  /-- row 22, `Cxnn` RND Vx, nn: random byte masked (R121) -/
  | rnd (x : RegIdx) (nn : Byte)
  /-- row 23, `Dxyn` DRW Vx, Vy, n: draw a sprite of n rows (R142) -/
  | drw (x y : RegIdx) (n : Fin 16)
  /-- row 24, `Ex9E` SKP Vx: skip if key down (R160) -/
  | skp (x : RegIdx)
  /-- row 25, `ExA1` SKNP Vx: skip if key up (R161) -/
  | sknp (x : RegIdx)
  /-- row 26, `Fx07` LD Vx, DT: read the delay timer (R150) -/
  | ldVxDt (x : RegIdx)
  /-- row 27, `Fx0A` LD Vx, K: wait for a key press and release (R162) -/
  | ldVxK (x : RegIdx)
  /-- row 28, `Fx15` LD DT, Vx: set the delay timer (R151) -/
  | ldDtVx (x : RegIdx)
  /-- row 29, `Fx18` LD ST, Vx: set the sound timer (R152) -/
  | ldStVx (x : RegIdx)
  /-- row 30, `Fx1E` ADD I, Vx: add a register to the address register (R131) -/
  | addI (x : RegIdx)
  /-- row 31, `Fx29` LD F, Vx: address of a glyph (R132) -/
  | ldF (x : RegIdx)
  /-- row 32, `Fx33` LD B, Vx: binary-coded-decimal store (R133) -/
  | ldB (x : RegIdx)
  /-- row 33, `Fx55` LD [I], Vx: store registers V0 to Vx (R135) -/
  | storeRegs (x : RegIdx)
  /-- row 34, `Fx65` LD Vx, [I]: load registers V0 to Vx (R136) -/
  | loadRegs (x : RegIdx)
deriving DecidableEq, Repr

end Sys2Proof
end

