-- ==== Sys2Proof/WellFormed.lean ====
section
/-! DEFINITION. The opcode map of 30_encoding.md rule R79 as data, and the two checks that refer to it.

Every field of an instruction has exactly the width its encoding gives it and all values of every field are valid
(30_encoding.md rules R71, R73), so an instruction carries no side condition of its own: what can be ill-formed on this
hardware is a WORD, one that matches no row of the map (rule R80). -/

namespace Sys2Proof

/-- One row of the opcode map: a word decodes as the row when `word AND mask = pat` (rule R79). -/
structure OpcodeRow where
  /-- the row's `match` column -/
  pat : Word
  /-- the row's `mask` column -/
  mask : Word
deriving DecidableEq, Repr

/-- The word is in the row (rule R79: `(word AND mask) = match`). -/
def OpcodeRow.covers (r : OpcodeRow) (w : Word) : Bool := w &&& r.mask == r.pat

/-- The row of each instruction (rule R79). PRESUMED: the numbers (notes/assumptions 12). -/
def Instr.row : Instr → OpcodeRow
  | .cls => ⟨0x00E0#16, 0xF0FF#16⟩
  | .ret => ⟨0x00EE#16, 0xF0FF#16⟩
  | .jp _ => ⟨0x1000#16, 0xF000#16⟩
  | .call _ => ⟨0x2000#16, 0xF000#16⟩
  | .seImm _ _ => ⟨0x3000#16, 0xF000#16⟩
  | .sneImm _ _ => ⟨0x4000#16, 0xF000#16⟩
  | .seReg _ _ => ⟨0x5000#16, 0xF000#16⟩
  | .ldImm _ _ => ⟨0x6000#16, 0xF000#16⟩
  | .addImm _ _ => ⟨0x7000#16, 0xF000#16⟩
  | .ldReg _ _ => ⟨0x8000#16, 0xF00F#16⟩
  | .orReg _ _ => ⟨0x8001#16, 0xF00F#16⟩
  | .andReg _ _ => ⟨0x8002#16, 0xF00F#16⟩
  | .xorReg _ _ => ⟨0x8003#16, 0xF00F#16⟩
  | .addReg _ _ => ⟨0x8004#16, 0xF00F#16⟩
  | .sub _ _ => ⟨0x8005#16, 0xF00F#16⟩
  | .shr _ => ⟨0x8006#16, 0xF00F#16⟩
  | .subn _ _ => ⟨0x8007#16, 0xF00F#16⟩
  | .shl _ => ⟨0x800E#16, 0xF00F#16⟩
  | .sneReg _ _ => ⟨0x9000#16, 0xF000#16⟩
  | .ldI _ => ⟨0xA000#16, 0xF000#16⟩
  | .jpV0 _ => ⟨0xB000#16, 0xF000#16⟩
  | .rnd _ _ => ⟨0xC000#16, 0xF000#16⟩
  | .drw _ _ _ => ⟨0xD000#16, 0xF000#16⟩
  | .skp _ => ⟨0xE09E#16, 0xF0FF#16⟩
  | .sknp _ => ⟨0xE0A1#16, 0xF0FF#16⟩
  | .ldVxDt _ => ⟨0xF007#16, 0xF0FF#16⟩
  | .ldVxK _ => ⟨0xF00A#16, 0xF0FF#16⟩
  | .ldDtVx _ => ⟨0xF015#16, 0xF0FF#16⟩
  | .ldStVx _ => ⟨0xF018#16, 0xF0FF#16⟩
  | .addI _ => ⟨0xF01E#16, 0xF0FF#16⟩
  | .ldF _ => ⟨0xF029#16, 0xF0FF#16⟩
  | .ldB _ => ⟨0xF033#16, 0xF0FF#16⟩
  | .storeRegs _ => ⟨0xF055#16, 0xF0FF#16⟩
  | .loadRegs _ => ⟨0xF065#16, 0xF0FF#16⟩

/-- Rows 1 to 7 of the map. -/
def opcodeMapControl : List OpcodeRow :=
  [Instr.cls.row, Instr.ret.row, (Instr.jp 0).row, (Instr.call 0).row, (Instr.seImm 0 0).row, (Instr.sneImm 0 0).row,
   (Instr.seReg 0 0).row]

/-- Rows 8 to 18 of the map. -/
def opcodeMapAlu : List OpcodeRow :=
  [(Instr.ldImm 0 0).row, (Instr.addImm 0 0).row, (Instr.ldReg 0 0).row, (Instr.orReg 0 0).row, (Instr.andReg 0 0).row,
   (Instr.xorReg 0 0).row, (Instr.addReg 0 0).row, (Instr.sub 0 0).row, (Instr.shr 0).row, (Instr.subn 0 0).row,
   (Instr.shl 0).row]

/-- Rows 19 to 25 of the map. -/
def opcodeMapUpper : List OpcodeRow :=
  [(Instr.sneReg 0 0).row, (Instr.ldI 0).row, (Instr.jpV0 0).row, (Instr.rnd 0 0).row, (Instr.drw 0 0 0).row,
   (Instr.skp 0).row, (Instr.sknp 0).row]

/-- Rows 26 to 34 of the map, the 0xF family. -/
def opcodeMapF : List OpcodeRow :=
  [(Instr.ldVxDt 0).row, (Instr.ldVxK 0).row, (Instr.ldDtVx 0).row, (Instr.ldStVx 0).row, (Instr.addI 0).row,
   (Instr.ldF 0).row, (Instr.ldB 0).row, (Instr.storeRegs 0).row, (Instr.loadRegs 0).row]

/-- The opcode map: 34 rows (rules R79, R82). -/
def opcodeMap : List OpcodeRow := opcodeMapControl ++ opcodeMapAlu ++ opcodeMapUpper ++ opcodeMapF

/-- The word is in some row of the map; a word in none is unknown (rule R80). -/
def wordKnown (w : Word) : Bool := opcodeMap.any (·.covers w)

/-- An instruction is well-formed when its row is a row of the map. Its fields need no check (rule R73). -/
def Instr.wellFormed (i : Instr) : Bool := opcodeMap.contains i.row

end Sys2Proof
end

