-- ==== Sys2Proof/Decode.lean ====
section
/-! DEFINITION. The decoder, by leading nibble and then by discriminant (30_encoding.md rules R71 to R83), and after it
the encoder. Decoding reads nothing but the word (rule R83). -/

namespace Sys2Proof

/-- Why bytes give no instruction. -/
inductive Reject where
  /-- the word matches no row of the opcode map (rule R80); the machine then steps past it (rule R95) -/
  | unknown (w : Word)
  /-- fewer than the two bytes of an instruction (rule R70) -/
  | truncated
deriving DecidableEq, Repr

/-- `first`, bits 15-12 (rule R71). -/
def Word.first (w : Word) : BitVec 4 := w.extractLsb' 12 4

/-- `x`, bits 11-8 (rule R71). -/
def Word.x (w : Word) : RegIdx := (w.extractLsb' 8 4).toFin

/-- `y`, bits 7-4 (rule R71). -/
def Word.y (w : Word) : RegIdx := (w.extractLsb' 4 4).toFin

/-- `n`, bits 3-0, as DRW's height (rules R71, R72). -/
def Word.n (w : Word) : Fin 16 := (w.extractLsb' 0 4).toFin

/-- `n`, bits 3-0, as the discriminant of family 0x8 (rule R71). -/
def Word.low4 (w : Word) : BitVec 4 := w.extractLsb' 0 4

/-- `nn`, bits 7-0 (rule R71). -/
def Word.nn (w : Word) : Byte := w.extractLsb' 0 8

/-- `nnn`, bits 11-0 (rule R71). -/
def Word.nnn (w : Word) : Addr12 := w.extractLsb' 0 12

/-- Family 0x0: the discriminant is `nn` alone, the x nibble is ignored (rule R76). -/
def decodeFamily0 (w : Word) : Except Reject Instr :=
  match Word.nn w with
  | 0xE0#8 => .ok .cls
  | 0xEE#8 => .ok .ret
  | _ => .error (.unknown w)

/-- Family 0x8: the discriminant is `n` (rule R75). -/
def decodeFamily8 (w : Word) : Except Reject Instr :=
  match Word.low4 w with
  | 0x0#4 => .ok (.ldReg (Word.x w) (Word.y w))
  | 0x1#4 => .ok (.orReg (Word.x w) (Word.y w))
  | 0x2#4 => .ok (.andReg (Word.x w) (Word.y w))
  | 0x3#4 => .ok (.xorReg (Word.x w) (Word.y w))
  | 0x4#4 => .ok (.addReg (Word.x w) (Word.y w))
  | 0x5#4 => .ok (.sub (Word.x w) (Word.y w))
  | 0x6#4 => .ok (.shr (Word.x w))
  | 0x7#4 => .ok (.subn (Word.x w) (Word.y w))
  | 0xE#4 => .ok (.shl (Word.x w))
  | _ => .error (.unknown w)

/-- Family 0xE: the discriminant is `nn` (rule R75). -/
def decodeFamilyE (w : Word) : Except Reject Instr :=
  match Word.nn w with
  | 0x9E#8 => .ok (.skp (Word.x w))
  | 0xA1#8 => .ok (.sknp (Word.x w))
  | _ => .error (.unknown w)

/-- Family 0xF: the discriminant is `nn` (rule R75). -/
def decodeFamilyF (w : Word) : Except Reject Instr :=
  match Word.nn w with
  | 0x07#8 => .ok (.ldVxDt (Word.x w))
  | 0x0A#8 => .ok (.ldVxK (Word.x w))
  | 0x15#8 => .ok (.ldDtVx (Word.x w))
  | 0x18#8 => .ok (.ldStVx (Word.x w))
  | 0x1E#8 => .ok (.addI (Word.x w))
  | 0x29#8 => .ok (.ldF (Word.x w))
  | 0x33#8 => .ok (.ldB (Word.x w))
  | 0x55#8 => .ok (.storeRegs (Word.x w))
  | 0x65#8 => .ok (.loadRegs (Word.x w))
  | _ => .error (.unknown w)

/-- `Decode(word)`: dispatch by the leading nibble (rules R75, R77, R79, R92). -/
def decodeWord (w : Word) : Except Reject Instr :=
  match Word.first w with
  | 0x0#4 => decodeFamily0 w
  | 0x1#4 => .ok (.jp (Word.nnn w))
  | 0x2#4 => .ok (.call (Word.nnn w))
  | 0x3#4 => .ok (.seImm (Word.x w) (Word.nn w))
  | 0x4#4 => .ok (.sneImm (Word.x w) (Word.nn w))
  | 0x5#4 => .ok (.seReg (Word.x w) (Word.y w))
  | 0x6#4 => .ok (.ldImm (Word.x w) (Word.nn w))
  | 0x7#4 => .ok (.addImm (Word.x w) (Word.nn w))
  | 0x8#4 => decodeFamily8 w
  | 0x9#4 => .ok (.sneReg (Word.x w) (Word.y w))
  | 0xA#4 => .ok (.ldI (Word.nnn w))
  | 0xB#4 => .ok (.jpV0 (Word.nnn w))
  | 0xC#4 => .ok (.rnd (Word.x w) (Word.nn w))
  | 0xD#4 => .ok (.drw (Word.x w) (Word.y w) (Word.n w))
  | 0xE#4 => decodeFamilyE w
  | _ => decodeFamilyF w

/-- The big-endian word of two bytes (20_memory.md rule R58): the first byte is bits 15-8. -/
def wordOfBytes (hi lo : Byte) : Word := hi ++ lo

/-- The instruction at the front of a byte sequence, with the bytes after it (rules R58, R70). -/
def decodeBytes : List Byte → Except Reject (Instr × List Byte)
  | hi :: lo :: rest =>
    match decodeWord (wordOfBytes hi lo) with
    | .ok i => .ok (i, rest)
    | .error e => .error e
  | _ => .error .truncated

/-- The two bytes of a word as they stand in memory, big-endian (20_memory.md rule R58). -/
def bytesOfWord (w : Word) : List Byte := [w.extractLsb' 8 8, w.extractLsb' 0 8]

/-- The word whose bits are `w` in an instruction of which the opcode table gives `nbits` bits: every bit above
`nbits` is zero. -/
def tableWord (nbits w : Nat) : Word := BitVec.ofNat 16 (w % 2 ^ nbits)

/-- The instruction the decoder reads from a word of the opcode table. -/
def decodeTableWord (nbits w : Nat) : Option Instr :=
  match decodeBytes (bytesOfWord (tableWord nbits w)) with
  | .ok (i, _) => some i
  | .error _ => none

/-! The encoder. Ignored nibbles are written as zero (30_encoding.md rule R84). -/

/-- The four bits of a register or height field. -/
def nibble (k : Fin 16) : BitVec 4 := BitVec.ofFin k

/-- The format A word `ffff aaaa aaaa aaaa` (rule R74). -/
def wordA (first : BitVec 4) (nnn : Addr12) : Word := first ++ nnn

/-- The format XB and XD word `ffff xxxx bbbb bbbb` (rule R74). -/
def wordXB (first : BitVec 4) (x : RegIdx) (nn : Byte) : Word := (first ++ nibble x) ++ nn

/-- The format XY and XYN word `ffff xxxx yyyy nnnn` (rule R74). -/
def wordXYN (first : BitVec 4) (x y : RegIdx) (n : BitVec 4) : Word := ((first ++ nibble x) ++ nibble y) ++ n

/-- The instruction's word, from the patterns of rule R79. -/
def encodeWord : Instr → Word
  | .cls => wordXB 0x0#4 0 0xE0#8
  | .ret => wordXB 0x0#4 0 0xEE#8
  | .jp nnn => wordA 0x1#4 nnn
  | .call nnn => wordA 0x2#4 nnn
  | .seImm x nn => wordXB 0x3#4 x nn
  | .sneImm x nn => wordXB 0x4#4 x nn
  | .seReg x y => wordXYN 0x5#4 x y 0x0#4
  | .ldImm x nn => wordXB 0x6#4 x nn
  | .addImm x nn => wordXB 0x7#4 x nn
  | .ldReg x y => wordXYN 0x8#4 x y 0x0#4
  | .orReg x y => wordXYN 0x8#4 x y 0x1#4
  | .andReg x y => wordXYN 0x8#4 x y 0x2#4
  | .xorReg x y => wordXYN 0x8#4 x y 0x3#4
  | .addReg x y => wordXYN 0x8#4 x y 0x4#4
  | .sub x y => wordXYN 0x8#4 x y 0x5#4
  | .shr x => wordXYN 0x8#4 x 0 0x6#4
  | .subn x y => wordXYN 0x8#4 x y 0x7#4
  | .shl x => wordXYN 0x8#4 x 0 0xE#4
  | .sneReg x y => wordXYN 0x9#4 x y 0x0#4
  | .ldI nnn => wordA 0xA#4 nnn
  | .jpV0 nnn => wordA 0xB#4 nnn
  | .rnd x nn => wordXB 0xC#4 x nn
  | .drw x y n => wordXYN 0xD#4 x y (nibble n)
  | .skp x => wordXB 0xE#4 x 0x9E#8
  | .sknp x => wordXB 0xE#4 x 0xA1#8
  | .ldVxDt x => wordXB 0xF#4 x 0x07#8
  | .ldVxK x => wordXB 0xF#4 x 0x0A#8
  | .ldDtVx x => wordXB 0xF#4 x 0x15#8
  | .ldStVx x => wordXB 0xF#4 x 0x18#8
  | .addI x => wordXB 0xF#4 x 0x1E#8
  | .ldF x => wordXB 0xF#4 x 0x29#8
  | .ldB x => wordXB 0xF#4 x 0x33#8
  | .storeRegs x => wordXB 0xF#4 x 0x55#8
  | .loadRegs x => wordXB 0xF#4 x 0x65#8

/-- The instruction's two bytes as they stand in memory. -/
def encode (i : Instr) : List Byte := bytesOfWord (encodeWord i)

end Sys2Proof
end

