-- ==== Sys2Proof/Machine/Fetch.lean ====
section
/-! DEFINITION. What a step does around the instruction it executes (40_execution_cycle.md): the halted machine, the
bounds of the fetch, the fetched word, and the unknown word. -/

namespace Sys2Proof.Machine

/-- The word at pc, big-endian (rule R91, 20_memory.md rule R58). Meaningful when both bytes are in the extent. -/
def State.fetchWord (s : State) : Word := wordOfBytes (s.mem.read s.pc.toNat) (s.mem.read (s.pc.toNat + 1))

/-- Both bytes of the word at pc are in the extent, pc ≤ 0xFFE (rule R91). -/
def State.canFetch (s : State) : Bool := decide (s.pc.toNat + 1 < memSize)

/-- A step of a faulted machine changes no state (rule R96). DEDUCED: the no-op is a next state (notes/assumptions 7). -/
def haltedStep (s : State) : Result := .next s

/-- The fetch out of bounds (rule R91, 60_exceptions.md rule R170 code 3). -/
def fetchFault (s : State) : Result := raiseFault .fetchOutOfBounds s

/-- The unknown word: reported, and pc + 2 (rule R95). -/
def execUnknown (w : Word) (s : State) : Result := .next (s.report (.unknownInstruction s.pc w)).advance

/-- Where a word is placed for the next fetch: at pc, or at PROGRAM_START where pc has no word to fetch. -/
def State.placePc (s : State) : Word := if s.canFetch then s.pc else BitVec.ofNat 16 programStart

/-- Places a word where the next step fetches it. A faulted machine fetches nothing, so the fault record is emptied. DESIGN
CHOICE (notes/assumptions 9). -/
def State.placeWord (s : State) (w : Word) : State :=
  { s with fault := none, pc := s.placePc, mem := s.mem.writeBytes s.placePc.toNat (bytesOfWord w) }

end Sys2Proof.Machine
end

