-- ==== Sys2Proof/Machine/Step.lean ====
section
/-! DEFINITION. One step (40_execution_cycle.md rules R90 to R97): halted, or fetch, decode and execute. -/

namespace Sys2Proof.Machine

/-- `step()` (rule R91). -/
def step (s : State) : Host.Outcome State Fault Refusal :=
  match s.fault with
  | some _ => haltedStep s
  | none =>
    match s.canFetch with
    | false => fetchFault s
    | true =>
      match decodeWord s.fetchWord with
      | .ok i => exec i s
      | .error _ => execUnknown s.fetchWord s

/-- The state with an instruction of the opcode table placed where the next step fetches. -/
def State.withFetchWord (s : State) (nbits w : Nat) : State := s.placeWord (tableWord nbits w)

end Sys2Proof.Machine
end

