-- ==== Sys2Proof/Machine/Ports.lean ====
section
/-! DEFINITION. The host ports (60_exceptions.md rule R182, 70_reset_and_hazards.md rules R190 to R193). Each call is one
atomic change between steps (10_state.md rule R42). -/

namespace Sys2Proof.Machine

/-- `initialize()` with the parameters of 00_scope.md rule R8 (70_reset_and_hazards.md rule R190): memory zero but for the
glyph table, which holds GLYPH_FONT. -/
def initMachine (font : Vector Byte 80) (gw : GlyphWrite) : State :=
  { State.reset with mem := Memory.writeBytes [] glyphBase font.toList, glyphWrite := gw }

/-- The result of `load_program` (70_reset_and_hazards.md rule R191). -/
inductive LoadResult where
  | ok
  /-- 60_exceptions.md rule R170 code 7: the port fails and nothing is written -/
  | programTooLarge
deriving DecidableEq, Repr

/-- `load_program(bytes)` (70_reset_and_hazards.md rule R191): pc is unchanged. -/
def loadProgram (bytes : List Byte) (s : State) : LoadResult × State :=
  if bytes.length > memSize - programStart then (.programTooLarge, s)
  else (.ok, { s with mem := s.mem.writeBytes programStart bytes })

/-- `set_input(bits)` (60_exceptions.md rule R179). -/
def setInput (bits : Vector Bool 16) (s : State) : State := { s with keys := bits }

/-- A down-counter's decrement, saturating at 0 (60_exceptions.md rule R178). -/
def tickDown (b : Byte) : Byte := if b = 0 then 0 else b - 1

/-- `tick_timers()` (60_exceptions.md rule R178), whatever `wait` and `fault` hold. -/
def tickTimers (s : State) : State := { s with dt := tickDown s.dt, st := tickDown s.st }

/-- `display()`: the cells and the dirty flag, which it does not clear (60_exceptions.md rule R180). -/
def displayView (s : State) : Display × Bool := (s.disp, s.dirty)

/-- `consume_frame()` (60_exceptions.md rule R184). -/
def consumeFrame (s : State) : State := { s with dirty := false }

/-- The port calls a host may make after boot, in any order (70_reset_and_hazards.md rule R192). DESIGN CHOICE: no second
initialisation or load (notes/assumptions 10). -/
inductive HostCall where
  | setInput (bits : Vector Bool 16)
  | tickTimers
  | step
  | display
  | consumeFrame
deriving DecidableEq, Repr

/-- The state a port call leaves; reading the display changes nothing (60_exceptions.md rules R180, R182). -/
def hostCall (c : HostCall) (s : State) : Result :=
  match c with
  | .setInput bits => .next (Sys2Proof.Machine.setInput bits s)
  | .tickTimers => .next (Sys2Proof.Machine.tickTimers s)
  | .step => Sys2Proof.Machine.step s
  | .display => .next s
  | .consumeFrame => .next (Sys2Proof.Machine.consumeFrame s)

/-- The codes of 60_exceptions.md rule R170: the faults. -/
def faultCode : Fault → Nat
  | .fetchOutOfBounds => 3
  | .memoryOutOfBounds => 4
  | .addressOverflow => 5
  | .glyphWrite => 6

/-- The codes of 60_exceptions.md rule R170: the recoverable conditions. -/
def reportCode : Report → Nat
  | .unknownInstruction _ _ => 1
  | .stackUnderflow _ => 2

/-- The code of 60_exceptions.md rule R170: the port failure; a load that succeeds is no condition. -/
def loadResultCode : LoadResult → Option Nat
  | .ok => none
  | .programTooLarge => some 7

end Sys2Proof.Machine
end

