-- ==== Sys2Proof/Safety.lean ====
section
/-! DEFINITION. The words claims are stated in: the parts of the state and what it means to leave them unchanged, which
parts an instruction may write, runs of port calls, the end of a run, and the invariants. -/

namespace Sys2Proof.Machine

/-- One part of the state: a register, a byte of memory, or a whole field. Every field of State is covered. -/
inductive Part where
  | pc
  | reg (r : RegIdx)
  | i
  | stack
  | dt
  | st
  | byte (a : Nat)
  | disp
  | dirty
  | keys
  | wait
  | fault
  | glyphWrite
  | draws
  | reports
deriving DecidableEq, Repr

/-- The part holds the same value in both states; memory is compared by reading the byte. -/
def Part.same (p : Part) (s t : State) : Prop :=
  match p with
  | .pc => t.pc = s.pc
  | .reg r => t.reg r = s.reg r
  | .i => t.i = s.i
  | .stack => t.stack = s.stack
  | .dt => t.dt = s.dt
  | .st => t.st = s.st
  | .byte a => t.mem.read a = s.mem.read a
  | .disp => t.disp = s.disp
  | .dirty => t.dirty = s.dirty
  | .keys => t.keys = s.keys
  | .wait => t.wait = s.wait
  | .fault => t.fault = s.fault
  | .glyphWrite => t.glyphWrite = s.glyphWrite
  | .draws => t.draws = s.draws
  | .reports => t.reports = s.reports

/-- Every part of the state but those listed is unchanged from `s` to `t`. -/
def Unchanged (written : List Part) (s t : State) : Prop := ∀ p, p ∉ written → p.same s t

/-- `len` bytes of memory from `lo`. -/
def bytesAt (lo len : Nat) : List Part := (List.range len).map fun k => .byte (lo + k)

/-- A store of `len` bytes at I is in bounds and does not raise GlyphWrite (43_address_memory.md rule R134,
20_memory.md rule R67). -/
def StoreAllowed (s : State) (len : Nat) : Prop :=
  s.i.toNat + len ≤ 4096 ∧ (s.glyphWrite = .write ∨ s.i.toNat + len ≤ 0x050 ∨ 0x0A0 ≤ s.i.toNat)

/-- What each instruction may write, by the rules that name the writers of each part (10_state.md rules R21 to R36,
60_exceptions.md rule R172). -/
def mayWrite (i : Instr) (s : State) (p : Part) : Prop :=
  match i with
  | .cls => p ∈ [.pc, .disp, .dirty]
  | .ret => p ∈ [.pc, .stack, .draws, .reports]
  | .jp _ | .jpV0 _ => p = .pc
  | .call _ => p ∈ [.pc, .stack]
  | .seImm _ _ | .sneImm _ _ | .seReg _ _ | .sneReg _ _ | .skp _ | .sknp _ => p = .pc
  | .ldImm x _ | .addImm x _ | .ldReg x _ | .orReg x _ | .andReg x _ | .xorReg x _ | .ldVxDt x => p ∈ [.pc, .reg x]
  | .addReg x _ | .sub x _ | .subn x _ | .shr x | .shl x => p ∈ [.pc, .reg x, .reg flagReg]
  | .rnd x _ => p ∈ [.pc, .reg x, .draws]
  | .ldI _ | .ldF _ => p ∈ [.pc, .i]
  | .addI _ => p ∈ [.pc, .i, .fault]
  | .drw _ _ _ => p ∈ [.pc, .reg flagReg, .disp, .dirty]
  | .ldVxK x => p ∈ [.pc, .reg x, .wait, .draws]
  | .ldDtVx _ => p ∈ [.pc, .dt]
  | .ldStVx _ => p ∈ [.pc, .st]
  | .ldB _ => p ∈ [.pc, .fault] ∨ p ∈ bytesAt s.i.toNat 3
  | .storeRegs x => p ∈ [.pc, .fault] ∨ p ∈ bytesAt s.i.toNat (x.val + 1)
  | .loadRegs x => p ∈ [.pc, .fault] ∨ ∃ r, r ≤ x ∧ p = .reg r

/-- The conditions under which an instruction raises a fault (60_exceptions.md rule R170, codes 4 to 6). -/
def faultsNow (i : Instr) (s : State) : Prop :=
  match i with
  | .addI x => s.i.toNat + (s.reg x).toNat > 0xFFFF
  | .ldB _ => ¬ StoreAllowed s 3
  | .storeRegs x => ¬ StoreAllowed s (x.val + 1)
  | .loadRegs x => s.i.toNat + x.val > 0xFFF
  | .cls | .ret | .jp _ | .call _ | .seImm _ _ | .sneImm _ _ | .seReg _ _ | .ldImm _ _ | .addImm _ _ | .ldReg _ _
  | .orReg _ _ | .andReg _ _ | .xorReg _ _ | .addReg _ _ | .sub _ _ | .shr _ | .subn _ _ | .shl _ | .sneReg _ _
  | .ldI _ | .jpV0 _ | .rnd _ _ | .drw _ _ _ | .skp _ | .sknp _ | .ldVxDt _ | .ldVxK _ | .ldDtVx _ | .ldStVx _
  | .ldF _ => False

/-- The bits of the word that the instruction's row ignores (30_encoding.md rules R76, R77, 42_alu.md rules R118, R120). -/
def ignoredBits (i : Instr) : Word :=
  match i with
  | .cls | .ret => 0x0F00
  | .seReg _ _ | .sneReg _ _ => 0x000F
  | .shr _ | .shl _ => 0x00F0
  | .jp _ | .call _ | .seImm _ _ | .sneImm _ _ | .ldImm _ _ | .addImm _ _ | .ldReg _ _ | .orReg _ _ | .andReg _ _
  | .xorReg _ _ | .addReg _ _ | .sub _ _ | .subn _ _ | .ldI _ | .jpV0 _ | .rnd _ _ | .drw _ _ _ | .skp _ | .sknp _
  | .ldVxDt _ | .ldVxK _ | .ldDtVx _ | .ldStVx _ | .addI _ | .ldF _ | .ldB _ | .storeRegs _ | .loadRegs _ => 0

/-- The sprite of n rows at I has a drawn 1 bit at the cell: the cell lies in the 8 columns and n rows that start at
(V[x] AND 63, V[y] AND 31), the row's byte is in memory, and its bit there is 1 (44_display.md rules R141, R142). -/
def spriteAt (s : State) (x y : RegIdx) (n : Fin 16) (cx : Fin 64) (cy : Fin 32) : Bool :=
  let dx := cx.val - (s.reg x).toNat % 64
  let dy := cy.val - (s.reg y).toNat % 32
  decide ((s.reg x).toNat % 64 ≤ cx.val) && decide (dx < 8) && decide ((s.reg y).toNat % 32 ≤ cy.val) &&
    decide (dy < n.val) && decide (s.i.toNat + dy ≤ 0xFFF) && (s.mem.read (s.i.toNat + dy)).getLsbD (7 - dx)

/-- Applies a change of state to a next state. -/
def mapNext (f : State → State) : Result → Result
  | .next t => .next (f t)
  | .fault r => .fault r
  | .refused r => .refused r

/-- The two states differ at most in what no instruction can read: ST, the dirty flag and the reports (10_state.md rule
R40, 60_exceptions.md rule R171). -/
def SameButHidden (s t : State) : Prop := t = { s with st := t.st, dirty := t.dirty, reports := t.reports }

/-- Nothing is executed any more (40_execution_cycle.md rule R96). -/
def Halted (s : State) : Prop := s.fault ≠ none

/-- The end of a run (70_reset_and_hazards.md rule R195): the word at pc is a jump to pc itself, and no fault has been
raised. A halted machine and a stalled one are not at the end. -/
def AtEnd (s : State) : Prop :=
  s.fault = none ∧ s.canFetch = true ∧ ∃ nnn, decodeWord s.fetchWord = .ok (.jp nnn) ∧ zext12 nnn = s.pc

/-- The next step holds in LD Vx,K (46_keyboard.md rule R164). -/
def Stalled (s : State) : Prop :=
  s.fault = none ∧ s.canFetch = true ∧ (∃ x, decodeWord s.fetchWord = .ok (.ldVxK x)) ∧
    (s.wait = .idle ∨ ∃ k, s.wait = .armed k ∧ s.key k = true)

/-- The states of every run: boot, then port calls in any order (70_reset_and_hazards.md rules R192, R193). -/
inductive Reachable : State → Prop where
  | boot (font : Vector Byte 80) (gw : GlyphWrite) (image : List Byte) (s : State)
      (loaded : loadProgram image (initMachine font gw) = (.ok, s)) : Reachable s
  | call (c : HostCall) (s t : State) (before : Reachable s) (result : hostCall c s = .next t) : Reachable t

/-- INVARIANT: while the latch is Armed, the word at pc is an LD Vx,K (46_keyboard.md rule R165). -/
def WaitLatchOk (s : State) : Prop :=
  ∀ k, s.wait = .armed k → s.canFetch = true ∧ ∃ x, decodeWord s.fetchWord = .ok (.ldVxK x)

/-- INVARIANT: every return address was pushed by a CALL that was fetched, so it is at most 0x1000 (10_state.md rule
R25, 41_control_flow.md rule R102). -/
def StackBounded (s : State) : Prop := ∀ a ∈ s.stack, a.toNat ≤ 0x1000

end Sys2Proof.Machine
end

