-- ==== Sys2Proof/Certificates/Slice0/Obligations.lean ====
section
/-! DEFINITION. The statements for the provers (OBLIGATIONS.json). A docstring names the rule a statement formalises; a
clause that rests on the spec's own decision (92_eei_decisions.md) or on the model's log entry says so. -/

open Sys2Proof Sys2Proof.Machine

/-! ### Reset and boot -/

/-- 10_state.md R41, 70_reset_and_hazards.md R190. The values of I, DT, ST, the stack, the display, dirty, keys and wait
are the spec's decision D22, the fault record's is D28, the glyph bytes are the default font of decision D2, and
GLYPH_WRITE is its default, decision D14. -/
def Obligations.ResetHoldsTheResetTable : Prop :=
  (∀ r, State.reset.reg r = 0) ∧ State.reset.i = 0 ∧ State.reset.pc = 0x200 ∧ State.reset.stack = [] ∧
  State.reset.dt = 0 ∧ State.reset.st = 0 ∧
  (∀ a, a < 0x050 ∨ (0x0A0 ≤ a ∧ a < 4096) → State.reset.mem.read a = 0) ∧
  (∀ d : Fin 80, State.reset.mem.read (0x050 + d.val) = standardFont[d.val]!) ∧
  (∀ cx cy, State.reset.disp.cell cx cy = false) ∧ State.reset.dirty = false ∧ (∀ k, State.reset.key k = false) ∧
  State.reset.wait = .idle ∧ State.reset.fault = none ∧ State.reset.glyphWrite = .fault

/-- 70_reset_and_hazards.md R190, 20_memory.md R52, R53: for EVERY font the glyph table holds it after `initialize()` and
all other memory is zero; with the default parameters of 00_scope.md R8 the state is `State.reset`. The reset values of
everything but memory, V and pc are the spec's decisions D22 and D28, those of `State.reset`. -/
def Obligations.InitMachineHoldsTheFont : Prop :=
  (∀ (font : Vector Byte 80) (gw : GlyphWrite),
    (∀ d : Fin 80, (initMachine font gw).mem.read (0x050 + d.val) = font[d.val]) ∧
    (∀ a, a < 0x050 ∨ (0x0A0 ≤ a ∧ a < 4096) → (initMachine font gw).mem.read a = 0) ∧
    (initMachine font gw).glyphWrite = gw ∧
    Unchanged (.glyphWrite :: bytesAt 0x050 80) State.reset (initMachine font gw) ∧
    (initMachine font gw).mem.wf) ∧
  ∀ font : Vector Byte 80, font.toList = standardFont → initMachine font .fault = State.reset

/-- 70_reset_and_hazards.md R191, 20_memory.md R54: an image of at most 3584 bytes is copied to 0x200, nothing else
changes; a longer one fails and changes nothing. -/
def Obligations.LoadProgramCopiesOrFails : Prop :=
  ∀ (bytes : List Byte) (s : State),
    (bytes.length ≤ 3584 → ∃ t, loadProgram bytes s = (.ok, t) ∧
      (∀ k, (h : k < bytes.length) → t.mem.read (0x200 + k) = bytes[k]) ∧
      Unchanged (bytesAt 0x200 bytes.length) s t) ∧
    (3584 < bytes.length → loadProgram bytes s = (.programTooLarge, s))

/-! ### The step -/

/-- 20_memory.md R58: big-endian fetch. -/
def Obligations.FetchIsBigEndian : Prop :=
  ∀ s : State, s.fetchWord.toNat = 256 * (s.mem.read s.pc.toNat).toNat + (s.mem.read (s.pc.toNat + 1)).toNat

/-- 40_execution_cycle.md R91 to R93: when no fault is recorded and the two bytes at pc are in memory and decode to an
instruction, the step is that instruction's meaning, with pc still at the word. The bound of the fetch is the spec's
decision D11. -/
def Obligations.StepRunsDecodedInstruction : Prop :=
  ∀ (s : State) (i : Instr) (rest : List Byte), s.fault = none → s.pc.toNat ≤ 0xFFE →
    decodeBytes (s.mem.read s.pc.toNat :: s.mem.read (s.pc.toNat + 1) :: rest) = .ok (i, rest) →
    step s = exec i s

/-- 40_execution_cycle.md R95: an unknown word advances pc by 2 and changes nothing else. That the report is held in the
model's own list is the model's choice (notes/assumptions 6; the spec's decision D23 leaves it outside the architecture). -/
def Obligations.StepPassesUnknownWord : Prop :=
  ∀ s : State, s.fault = none → s.pc.toNat ≤ 0xFFE → wordKnown s.fetchWord = false →
    ∃ t, step s = .next t ∧ t.pc = s.pc + 2 ∧ t.reports = .unknownInstruction s.pc s.fetchWord :: s.reports ∧
      Unchanged [.pc, .reports] s t

/-- The fetch at pc > 0xFFE raises FetchOutOfBounds and changes nothing else: the spec's decisions D11 and D28
(92_eei_decisions.md). -/
def Obligations.StepFaultsPastMemory : Prop :=
  ∀ s : State, s.fault = none → 0xFFE < s.pc.toNat →
    step s = .next { s with fault := some .fetchOutOfBounds }

/-- A halted machine stays as it is however often it is stepped: the spec's decision D28 (92_eei_decisions.md). That such
a step is a next state and not a stop is the model's reading (notes/assumptions 7). -/
def Obligations.HaltedStepsChangeNothing : Prop :=
  ∀ (k : Nat) (s : State), s.fault ≠ none → core.run k s = .next s

/-- 40_execution_cycle.md R90, 60_exceptions.md R182: `step()` never fails and never blocks; faults are state. -/
def Obligations.StepAlwaysAnswersNext : Prop := ∀ s : State, ∃ t, step s = .next t

/-- An instruction of the opcode table placed where the machine fetches is the one the next step runs, whatever the
state was before: the model's own placing operation (notes/assumptions 9) with 40_execution_cycle.md R91 to R93. -/
def Obligations.PlacedWordRunsNext : Prop :=
  ∀ (s : State) (w : Nat) (i : Instr), decodeTableWord 16 w = some i →
    step (s.withFetchWord 16 w) = exec i (s.withFetchWord 16 w)

/-! ### Encoding -/

/-- Words written out from the patterns of 30_encoding.md R79 decode to the instructions they stand for. The numeric map
is the spec's decision D1, the ignored nibbles D4 and D5. -/
def Obligations.SampleWordsDecode : Prop :=
  decodeWord 0x00E0 = .ok .cls ∧ decodeWord 0x03E0 = .ok .cls ∧ decodeWord 0x0FEE = .ok .ret ∧
  decodeWord 0x2ABC = .ok (.call 0xABC) ∧ decodeWord 0x3312 = .ok (.seImm 3 0x12) ∧
  decodeWord 0x5121 = .ok (.seReg 1 2) ∧ decodeWord 0x8124 = .ok (.addReg 1 2) ∧ decodeWord 0x812E = .ok (.shl 1) ∧
  decodeWord 0xD015 = .ok (.drw 0 1 5) ∧ decodeWord 0xE2A1 = .ok (.sknp 2) ∧ decodeWord 0xF40A = .ok (.ldVxK 4) ∧
  decodeWord 0xF255 = .ok (.storeRegs 2) ∧ decodeWord 0x8008 = .error (.unknown 0x8008)

/-- Decoding the encoding of any instruction gives it back, with the bytes after it, and every instruction is
well-formed (30_encoding.md R70, R71, R73, R79; the numeric map is the spec's decision D1). -/
def Obligations.DecodeOfEncode : Prop :=
  ∀ (i : Instr) (rest : List Byte), i.wellFormed = true ∧ decodeBytes (encode i ++ rest) = .ok (i, rest)

/-- Encoding what a word decodes to gives the word back but for the bits its row ignores, which are written as zero
(30_encoding.md R84; decisions D4, D5, D8, D35; notes/assumptions 11). -/
def Obligations.EncodeOfDecode : Prop :=
  ∀ (w : Word) (i : Instr), decodeWord w = .ok i → encodeWord i = w &&& ~~~(ignoredBits i)

/-- 30_encoding.md R79, R83: the decoder and the opcode map agree on every word: a word in a row decodes to an
instruction of that row, so no word is in two rows, and a word in no row is refused by name. The map's numbers are the
spec's decision D1. -/
def Obligations.DecodeAgreesWithOpcodeMap : Prop :=
  (∀ w, wordKnown w = false → decodeWord w = .error (.unknown w)) ∧
  ∀ w, ∀ r ∈ opcodeMap, r.covers w = true → ∃ i, decodeWord w = .ok i ∧ i.row = r

/-- 30_encoding.md R80's table (an inference the spec marks as derived): the unknown words, by their hexadecimal digits. -/
def Obligations.UnknownWordsAreExactly : Prop :=
  ∀ w : Word, decodeWord w = .error (.unknown w) ↔
    (w.toNat / 4096 = 0x0 ∧ w.toNat % 256 ≠ 0xE0 ∧ w.toNat % 256 ≠ 0xEE) ∨
    (w.toNat / 4096 = 0x8 ∧ w.toNat % 16 ∈ [0x8, 0x9, 0xA, 0xB, 0xC, 0xD, 0xF]) ∨
    (w.toNat / 4096 = 0xE ∧ w.toNat % 256 ≠ 0x9E ∧ w.toNat % 256 ≠ 0xA1) ∨
    (w.toNat / 4096 = 0xF ∧ w.toNat % 256 ∉ [0x07, 0x0A, 0x15, 0x18, 0x1E, 0x29, 0x33, 0x55, 0x65])

/-! ### Control flow -/

/-- 41_control_flow.md R101. -/
def Obligations.JumpSetsPc : Prop :=
  ∀ (nnn : Addr12) (s : State), ∃ t, exec (.jp nnn) s = .next t ∧ t.pc.toNat = nnn.toNat ∧ Unchanged [.pc] s t

/-- 41_control_flow.md R102. -/
def Obligations.CallPushesReturnAddress : Prop :=
  ∀ (nnn : Addr12) (s : State), ∃ t, exec (.call nnn) s = .next t ∧ t.pc.toNat = nnn.toNat ∧
    t.stack = (s.pc + 2) :: s.stack ∧ Unchanged [.pc, .stack] s t

/-- 41_control_flow.md R100. On an empty stack the next pc is the draw, a free value: the spec's decision D15. The report
and the draw count are the model's fields (notes/assumptions 4, 6). -/
def Obligations.ReturnPopsOrUnderflows : Prop :=
  (∀ (s : State) (top : Word) (rest : List Word), s.stack = top :: rest →
    ∃ t, exec .ret s = .next t ∧ t.pc = top ∧ t.stack = rest ∧ Unchanged [.pc, .stack] s t) ∧
  ∀ s : State, s.stack = [] →
    ∃ t, exec .ret s = .next t ∧ t.pc = Config.drawPc s.draws ∧ t.draws = s.draws + 1 ∧
      t.reports = .stackUnderflow s.pc :: s.reports ∧ Unchanged [.pc, .draws, .reports] s t

/-- 41_control_flow.md R103, R104. -/
def Obligations.SkipsOnImmediate : Prop :=
  ∀ (x : RegIdx) (nn : Byte) (s : State),
    (∃ t, exec (.seImm x nn) s = .next t ∧ t.pc = (if s.reg x = nn then s.pc + 4 else s.pc + 2) ∧ Unchanged [.pc] s t) ∧
    ∃ t, exec (.sneImm x nn) s = .next t ∧ t.pc = (if s.reg x = nn then s.pc + 2 else s.pc + 4) ∧ Unchanged [.pc] s t

/-- 41_control_flow.md R105, R106. That the n nibble is ignored is the spec's decision D5: the instruction has no n. -/
def Obligations.SkipsOnRegister : Prop :=
  ∀ (x y : RegIdx) (s : State),
    (∃ t, exec (.seReg x y) s = .next t ∧ t.pc = (if s.reg x = s.reg y then s.pc + 4 else s.pc + 2) ∧
      Unchanged [.pc] s t) ∧
    ∃ t, exec (.sneReg x y) s = .next t ∧ t.pc = (if s.reg x = s.reg y then s.pc + 2 else s.pc + 4) ∧
      Unchanged [.pc] s t

/-- 41_control_flow.md R107: the sum is not masked. That a sum above 0xFFE only faults at the next fetch is the spec's
decision D10. -/
def Obligations.JumpWithOffsetAddsV0 : Prop :=
  ∀ (nnn : Addr12) (s : State), ∃ t, exec (.jpV0 nnn) s = .next t ∧ t.pc.toNat = nnn.toNat + (s.reg 0).toNat ∧
    Unchanged [.pc] s t

/-! ### Registers and ALU -/

/-- 42_alu.md R110, R111: no flag. -/
def Obligations.ImmediateLoadAndAdd : Prop :=
  ∀ (x : RegIdx) (nn : Byte) (s : State),
    (∃ t, exec (.ldImm x nn) s = .next t ∧ t.reg x = nn ∧ t.pc = s.pc + 2 ∧ Unchanged [.pc, .reg x] s t) ∧
    ∃ t, exec (.addImm x nn) s = .next t ∧ (t.reg x).toNat = ((s.reg x).toNat + nn.toNat) % 256 ∧ t.pc = s.pc + 2 ∧
      Unchanged [.pc, .reg x] s t

/-- 42_alu.md R112 to R115: VF is not cleared. That the destination is V[x] is the spec's decision D9. -/
def Obligations.CopyAndLogicLeaveFlag : Prop :=
  ∀ (x y : RegIdx) (s : State),
    (∃ t, exec (.ldReg x y) s = .next t ∧ t.reg x = s.reg y ∧ t.pc = s.pc + 2 ∧ Unchanged [.pc, .reg x] s t) ∧
    (∃ t, exec (.orReg x y) s = .next t ∧ t.reg x = s.reg x ||| s.reg y ∧ t.pc = s.pc + 2 ∧
      Unchanged [.pc, .reg x] s t) ∧
    (∃ t, exec (.andReg x y) s = .next t ∧ t.reg x = s.reg x &&& s.reg y ∧ t.pc = s.pc + 2 ∧
      Unchanged [.pc, .reg x] s t) ∧
    ∃ t, exec (.xorReg x y) s = .next t ∧ t.reg x = s.reg x ^^^ s.reg y ∧ t.pc = s.pc + 2 ∧
      Unchanged [.pc, .reg x] s t

/-- 42_alu.md R116. That the flag is written last, so that for x = 15 VF holds the flag, is the spec's decision D7; the
destination V[x] is D9. -/
def Obligations.AddSetsCarry : Prop :=
  ∀ (x y : RegIdx) (s : State), ∃ t, exec (.addReg x y) s = .next t ∧
    (x ≠ flagReg → (t.reg x).toNat = ((s.reg x).toNat + (s.reg y).toNat) % 256) ∧
    t.reg flagReg = (if (s.reg x).toNat + (s.reg y).toNat > 255 then 1 else 0) ∧
    t.pc = s.pc + 2 ∧ Unchanged [.pc, .reg x, .reg flagReg] s t

/-- 42_alu.md R117, R119. The flag last (x = 15) is the spec's decision D7; the destination V[x] is D9. -/
def Obligations.SubtractSetsNoBorrow : Prop :=
  ∀ (x y : RegIdx) (s : State),
    (∃ t, exec (.sub x y) s = .next t ∧
      (x ≠ flagReg → ((t.reg x).toNat : Int) = ((s.reg x).toNat - (s.reg y).toNat : Int) % 256) ∧
      t.reg flagReg = (if (s.reg x).toNat ≥ (s.reg y).toNat then 1 else 0) ∧
      t.pc = s.pc + 2 ∧ Unchanged [.pc, .reg x, .reg flagReg] s t) ∧
    ∃ t, exec (.subn x y) s = .next t ∧
      (x ≠ flagReg → ((t.reg x).toNat : Int) = ((s.reg y).toNat - (s.reg x).toNat : Int) % 256) ∧
      t.reg flagReg = (if (s.reg y).toNat ≥ (s.reg x).toNat then 1 else 0) ∧
      t.pc = s.pc + 2 ∧ Unchanged [.pc, .reg x, .reg flagReg] s t

/-- 42_alu.md R118, R120. The source V[x] is the spec's decision D8; the flag last (x = 15) is D7. -/
def Obligations.ShiftsSetShiftedOutBit : Prop :=
  ∀ (x : RegIdx) (s : State),
    (∃ t, exec (.shr x) s = .next t ∧ (x ≠ flagReg → (t.reg x).toNat = (s.reg x).toNat / 2) ∧
      (t.reg flagReg).toNat = (s.reg x).toNat % 2 ∧ t.pc = s.pc + 2 ∧ Unchanged [.pc, .reg x, .reg flagReg] s t) ∧
    ∃ t, exec (.shl x) s = .next t ∧ (x ≠ flagReg → (t.reg x).toNat = (s.reg x).toNat * 2 % 256) ∧
      (t.reg flagReg).toNat = (s.reg x).toNat / 128 ∧ t.pc = s.pc + 2 ∧ Unchanged [.pc, .reg x, .reg flagReg] s t

/-- 42_alu.md R121. The byte is the draw, a free value, fresh for each execution: the spec's decision D16. The draw count
is the model's field (notes/assumptions 3). -/
def Obligations.RandomMasksTheDraw : Prop :=
  ∀ (x : RegIdx) (nn : Byte) (s : State), ∃ t, exec (.rnd x nn) s = .next t ∧
    t.reg x = Config.drawByte s.draws &&& nn ∧ t.draws = s.draws + 1 ∧ t.pc = s.pc + 2 ∧
    Unchanged [.pc, .reg x, .draws] s t

/-! ### Address register and memory -/

/-- 43_address_memory.md R130, R132. -/
def Obligations.AddressRegisterLoads : Prop :=
  (∀ (nnn : Addr12) (s : State), ∃ t, exec (.ldI nnn) s = .next t ∧ t.i.toNat = nnn.toNat ∧ t.pc = s.pc + 2 ∧
    Unchanged [.pc, .i] s t) ∧
  ∀ (x : RegIdx) (s : State), ∃ t, exec (.ldF x) s = .next t ∧ t.i.toNat = 0x050 + 5 * ((s.reg x).toNat % 16) ∧
    t.pc = s.pc + 2 ∧ Unchanged [.pc, .i] s t

/-- 43_address_memory.md R131: a sum of at most 0xFFFF is stored unmasked. The fault above 0xFFFF, with no other change,
is the spec's decision D13. -/
def Obligations.AddressAddOrOverflows : Prop :=
  ∀ (x : RegIdx) (s : State),
    (s.i.toNat + (s.reg x).toNat ≤ 0xFFFF → ∃ t, exec (.addI x) s = .next t ∧
      t.i.toNat = s.i.toNat + (s.reg x).toNat ∧ t.pc = s.pc + 2 ∧ Unchanged [.pc, .i] s t) ∧
    (0xFFFF < s.i.toNat + (s.reg x).toNat → exec (.addI x) s = .next { s with fault := some .addressOverflow })

/-- 43_address_memory.md R133: the three digits, when the store is allowed. -/
def Obligations.BcdStoresDigits : Prop :=
  ∀ (x : RegIdx) (s : State), StoreAllowed s 3 → ∃ t, exec (.ldB x) s = .next t ∧
    (t.mem.read s.i.toNat).toNat = (s.reg x).toNat / 100 ∧
    (t.mem.read (s.i.toNat + 1)).toNat = (s.reg x).toNat / 10 % 10 ∧
    (t.mem.read (s.i.toNat + 2)).toNat = (s.reg x).toNat % 10 ∧
    t.pc = s.pc + 2 ∧ Unchanged (.pc :: bytesAt s.i.toNat 3) s t

/-- 43_address_memory.md R135: V0 to Vx at I and up, I unchanged, when the store is allowed. -/
def Obligations.RangeStoreCopiesRegisters : Prop :=
  ∀ (x : RegIdx) (s : State), StoreAllowed s (x.val + 1) → ∃ t, exec (.storeRegs x) s = .next t ∧
    (∀ r : RegIdx, r ≤ x → t.mem.read (s.i.toNat + r.val) = s.reg r) ∧
    t.pc = s.pc + 2 ∧ Unchanged (.pc :: bytesAt s.i.toNat (x.val + 1)) s t

/-- 43_address_memory.md R136: V0 to Vx from I and up, I unchanged, when the range is in bounds. -/
def Obligations.RangeLoadFillsRegisters : Prop :=
  ∀ (x : RegIdx) (s : State), s.i.toNat + x.val ≤ 0xFFF → ∃ t, exec (.loadRegs x) s = .next t ∧
    (∀ r : RegIdx, r ≤ x → t.reg r = s.mem.read (s.i.toNat + r.val)) ∧
    (∀ r : RegIdx, x < r → t.reg r = s.reg r) ∧
    t.pc = s.pc + 2 ∧ Unchanged (.pc :: allRegs.map .reg) s t

/-- The fault over a range past 0xFFF, before any access, whatever else the range meets: the spec's decisions D12, D28
and D33 (92_eei_decisions.md). -/
def Obligations.RangePastMemoryFaults : Prop :=
  ∀ (x : RegIdx) (s : State),
    (0xFFF < s.i.toNat + 2 → exec (.ldB x) s = .next { s with fault := some .memoryOutOfBounds }) ∧
    (0xFFF < s.i.toNat + x.val →
      exec (.storeRegs x) s = .next { s with fault := some .memoryOutOfBounds } ∧
      exec (.loadRegs x) s = .next { s with fault := some .memoryOutOfBounds })

/-- The fault of a store into the glyph table when GLYPH_WRITE is `fault`: the spec's decision D14
(92_eei_decisions.md). -/
def Obligations.GlyphStoreFaults : Prop :=
  ∀ (x : RegIdx) (s : State), s.glyphWrite = .fault →
    (s.i.toNat ≤ 0x09F → 0x050 ≤ s.i.toNat + 2 →
      exec (.ldB x) s = .next { s with fault := some .glyphWrite }) ∧
    (s.i.toNat ≤ 0x09F → 0x050 ≤ s.i.toNat + x.val →
      exec (.storeRegs x) s = .next { s with fault := some .glyphWrite })

/-- Two memories in canonical form that read the same everywhere are the same data (notes/assumptions 1). -/
def Obligations.CanonicalMemoriesEqual : Prop :=
  ∀ m n : Memory, m.wf → n.wf → (∀ a, m.read a = n.read a) → m = n

/-- A store is seen by the next fetch of the stored bytes: the spec's decision D26 (92_eei_decisions.md). -/
def Obligations.StoreIsSeenByFetch : Prop :=
  ∀ (x r : RegIdx) (s t : State), StoreAllowed s (x.val + 1) → r < x → exec (.storeRegs x) s = .next t →
    ∀ u : State, u.mem = t.mem → u.pc.toNat = s.i.toNat + r.val →
      u.fetchWord = wordOfBytes (s.reg r) (s.reg (r + 1))

/-! ### Display -/

/-- 44_display.md R140. -/
def Obligations.ClearTurnsEveryCellOff : Prop :=
  ∀ s : State, ∃ t, exec .cls s = .next t ∧ (∀ cx cy, t.disp.cell cx cy = false) ∧ t.dirty = true ∧ t.pc = s.pc + 2 ∧
    Unchanged [.pc, .disp, .dirty] s t

/-- 44_display.md R141 to R143 in closed form: the cells where the clipped sprite has a 1 bit are toggled, VF tells
whether one of them was on. The coordinates before VF is cleared, n = 0 and the dirty flag whatever was drawn are the
spec's decisions D17, D19 and D18. -/
def Obligations.DrawTogglesSpriteCells : Prop :=
  ∀ (x y : RegIdx) (n : Fin 16) (s : State), ∃ t, exec (.drw x y n) s = .next t ∧
    (∀ cx cy, t.disp.cell cx cy = (s.disp.cell cx cy ^^ spriteAt s x y n cx cy)) ∧
    ((∃ cx cy, s.disp.cell cx cy = true ∧ spriteAt s x y n cx cy = true) → t.reg flagReg = 1) ∧
    ((∀ cx cy, s.disp.cell cx cy = true → spriteAt s x y n cx cy = false) → t.reg flagReg = 0) ∧
    t.dirty = true ∧ t.pc = s.pc + 2 ∧ Unchanged [.pc, .reg flagReg, .disp, .dirty] s t

/-- 44_display.md R143 (an inference the spec marks as derived): drawing the same sprite twice at the same place restores
the display, and the second draw reports a collision if a 1 bit was drawn on a cell that was off before the first. The
rule says 'at least one drawn 1 bit'; R142's algorithm gives a collision only under the condition stated here, and the
model follows R142 (notes/assumptions 8). -/
def Obligations.DrawTwiceRestores : Prop :=
  ∀ (x y : RegIdx) (n : Fin 16) (s t u : State), exec (.drw x y n) s = .next t → t.reg x = s.reg x →
    t.reg y = s.reg y → exec (.drw x y n) t = .next u →
    u.disp = s.disp ∧ ((∃ cx cy, spriteAt s x y n cx cy = true ∧ s.disp.cell cx cy = false) → u.reg flagReg = 1)

/-- 10_state.md R34: who sets the dirty flag, who clears it, and that no instruction reads it. Where two
executions are compared, both take the same draw, an input of the step (00_scope.md R10; notes/assumptions 3 to 5). -/
def Obligations.DirtyFlagWritersAndReaders : Prop :=
  (∀ s t, exec .cls s = .next t → t.dirty = true) ∧
  (∀ x y n s t, exec (.drw x y n) s = .next t → t.dirty = true) ∧
  (∀ s, hostCall .consumeFrame s = .next { s with dirty := false }) ∧
  (∀ s, hostCall .display s = .next s) ∧
  (∀ c s t, hostCall c s = .next t → s.dirty = true → t.dirty = false → c = .consumeFrame) ∧
  ∀ i s b, ∃ t d, exec i s = .next t ∧ exec i { s with dirty := b } = .next { t with dirty := d }

/-! ### Timers -/

/-- 45_timers.md R150 to R152. -/
def Obligations.TimerTransfers : Prop :=
  ∀ (x : RegIdx) (s : State),
    (∃ t, exec (.ldVxDt x) s = .next t ∧ t.reg x = s.dt ∧ t.pc = s.pc + 2 ∧ Unchanged [.pc, .reg x] s t) ∧
    (∃ t, exec (.ldDtVx x) s = .next t ∧ t.dt = s.reg x ∧ t.pc = s.pc + 2 ∧ Unchanged [.pc, .dt] s t) ∧
    ∃ t, exec (.ldStVx x) s = .next t ∧ t.st = s.reg x ∧ t.pc = s.pc + 2 ∧ Unchanged [.pc, .st] s t

/-- 60_exceptions.md R178: the saturating tick. That it decrements whatever wait and fault hold is the spec's decision
D27. -/
def Obligations.TickSaturatesAtZero : Prop :=
  ∀ s : State, ∃ t, hostCall .tickTimers s = .next t ∧ t.dt.toNat = s.dt.toNat - 1 ∧ t.st.toNat = s.st.toNat - 1 ∧
    Unchanged [.dt, .st] s t

/-- 10_state.md R32: who writes and who reads the timers, and who decrements them. Where two
executions are compared, both take the same draw, an input of the step (00_scope.md R10; notes/assumptions 3 to 5). -/
def Obligations.TimerWritersAndReaders : Prop :=
  (∀ x s, ∃ t u v, exec (.ldDtVx x) s = .next t ∧ t.dt = s.reg x ∧ exec (.ldVxDt x) s = .next u ∧ u.reg x = s.dt ∧
    exec (.ldStVx x) s = .next v ∧ v.st = s.reg x) ∧
  (∀ s, ∃ t, hostCall .tickTimers s = .next t ∧ t.dt.toNat = s.dt.toNat - 1 ∧ t.st.toNat = s.st.toNat - 1) ∧
  (∀ i s t, exec i s = .next t → t.dt ≠ s.dt → ∃ x, i = .ldDtVx x) ∧
  (∀ i s t, exec i s = .next t → t.st ≠ s.st → ∃ x, i = .ldStVx x) ∧
  (∀ c s t, hostCall c s = .next t → t.dt ≠ s.dt → c = .tickTimers ∨ (c = .step ∧ ∃ x, exec (.ldDtVx x) s = .next t)) ∧
  (∀ c s t, hostCall c s = .next t → t.st ≠ s.st → c = .tickTimers ∨ (c = .step ∧ ∃ x, exec (.ldStVx x) s = .next t)) ∧
  (∀ i s b, (∃ x, i = .ldVxDt x) ∨
    ∃ t d, exec i s = .next t ∧ exec i { s with dt := b } = .next { t with dt := d }) ∧
  ∀ i s b, ∃ t d, exec i s = .next t ∧ exec i { s with st := b } = .next { t with st := d }

/-! ### Keyboard -/

/-- 46_keyboard.md R160, R161. -/
def Obligations.KeySkipsTestLowNibble : Prop :=
  ∀ (x : RegIdx) (s : State) (k : KeyIdx), k.val = (s.reg x).toNat % 16 →
    (∃ t, exec (.skp x) s = .next t ∧ t.pc = (if s.key k then s.pc + 4 else s.pc + 2) ∧ Unchanged [.pc] s t) ∧
    ∃ t, exec (.sknp x) s = .next t ∧ t.pc = (if s.key k then s.pc + 2 else s.pc + 4) ∧ Unchanged [.pc] s t

/-- 46_keyboard.md R162, R163, the four rows of the table. Which of several keys is armed is a draw, a free value: the
spec's decision D20. The draw count is the model's field (notes/assumptions 5). -/
def Obligations.KeyWaitTransitions : Prop :=
  ∀ (x : RegIdx) (s : State),
    (s.wait = .idle → (∀ k, s.key k = false) → exec (.ldVxK x) s = .next s) ∧
    (s.wait = .idle → (∃ k, s.key k = true) → ∃ t k, exec (.ldVxK x) s = .next t ∧ s.key k = true ∧
      t.wait = .armed k ∧ t.draws = s.draws + 1 ∧ Unchanged [.wait, .draws] s t) ∧
    (∀ k, s.wait = .armed k → s.key k = true → exec (.ldVxK x) s = .next s) ∧
    (∀ k, s.wait = .armed k → s.key k = false → ∃ t, exec (.ldVxK x) s = .next t ∧ (t.reg x).toNat = k.val ∧
      t.wait = .idle ∧ t.pc = s.pc + 2 ∧ Unchanged [.pc, .reg x, .wait] s t)

/-- 46_keyboard.md R162, WAIT_KEY_CHOICE: the choice is always a key that is down, and every key that is down can be
chosen (the spec's decision D20). -/
def Obligations.KeyChoiceIsAnyKeyDown : Prop :=
  ∀ (s : State) (k : KeyIdx) (ks : List KeyIdx), s.keysDown = k :: ks →
    (∀ r, s.key (chooseKey k ks r) = true) ∧ ∀ j, s.key j = true → ∃ r, chooseKey k ks r = j

/-- 46_keyboard.md R165 (an inference the spec marks as derived): while the latch is Armed the word at pc is an LD Vx,K.
Every port call keeps it, from every state that has it. -/
def Obligations.PortCallsKeepWaitLatch : Prop :=
  ∀ (c : HostCall) (s t : State), WaitLatchOk s → hostCall c s = .next t → WaitLatchOk t

/-- 10_state.md R35: who writes and who reads the input state; 60_exceptions.md R179: a set-input call replaces it
wholesale and leaves everything else, the latch among it. Where two
executions are compared, both take the same draw, an input of the step (00_scope.md R10; notes/assumptions 3 to 5). -/
def Obligations.InputWritersAndReaders : Prop :=
  (∀ bits s, ∃ t, hostCall (.setInput bits) s = .next t ∧ (∀ k, t.key k = bits[k]) ∧ Unchanged [.keys] s t) ∧
  (∀ c s t, hostCall c s = .next t → t.keys ≠ s.keys → ∃ bits, c = .setInput bits) ∧
  (∀ i s bits, (∃ x, i = .skp x ∨ i = .sknp x ∨ i = .ldVxK x) ∨
    exec i { s with keys := bits } = mapNext (fun t => { t with keys := bits }) (exec i s)) ∧
  ∀ x, ∀ i ∈ [Instr.skp x, .sknp x, .ldVxK x], ∃ s bits,
    exec i { s with keys := bits } ≠ mapNext (fun t => { t with keys := bits }) (exec i s)

/-! ### The whole machine -/

/-- What each instruction leaves unchanged: everything but what the rules that name the writers of each part give it
(10_state.md R21 to R36, 60_exceptions.md R172). The parts that only a fault writes rest on the spec's decision D28. -/
def Obligations.InstructionFrames : Prop :=
  ∀ (i : Instr) (s t : State), exec i s = .next t → ∀ p, ¬ mayWrite i s p → p.same s t

/-- 10_state.md R30: CALL pushes whatever the depth, RET pops, no other instruction reads or writes the stack. Where two
executions are compared, both take the same draw, an input of the step (00_scope.md R10; notes/assumptions 3 to 5). -/
def Obligations.StackOnlyByCallAndRet : Prop :=
  (∀ nnn s, ∃ t, exec (.call nnn) s = .next t ∧ t.stack = (s.pc + 2) :: s.stack) ∧
  (∀ s a rest, s.stack = a :: rest → ∃ t, exec .ret s = .next t ∧ t.stack = rest ∧ t.pc = a) ∧
  ∀ i s stack, i = .ret ∨ (∃ nnn, i = .call nnn) ∨
    exec i { s with stack := stack } = mapNext (fun t => { t with stack := stack }) (exec i s)

/-- 60_exceptions.md R170, codes 4 to 6: from a machine with no fault, an instruction raises one exactly under the
conditions its rule names. The conditions are the spec's decisions D12, D13 and D14. -/
def Obligations.InstructionsFaultExactlyWhen : Prop :=
  ∀ (i : Instr) (s t : State), s.fault = none → exec i s = .next t → (t.fault ≠ none ↔ faultsNow i s)

/-- 60_exceptions.md R173 (an inference the spec marks as derived): a step that raises a fault changes nothing but the
fault record. -/
def Obligations.FaultsArePrecise : Prop :=
  ∀ s t : State, step s = .next t → t.fault ≠ s.fault → t = { s with fault := t.fault }

/-- No port call clears a fault: the spec's decisions D28 and D29 (92_eei_decisions.md). -/
def Obligations.FaultIsSticky : Prop :=
  ∀ (c : HostCall) (s t : State) (k : Fault), s.fault = some k → hostCall c s = .next t → t.fault = some k

/-- Every step keeps memory in canonical form (notes/assumptions 1). -/
def Obligations.StepKeepsMemoryCanonical : Prop :=
  ∀ s t : State, s.mem.wf → step s = .next t → t.mem.wf

/-- Memory is in canonical form, the latch is Idle and the stack is bounded at reset (10_state.md R41; the stack and the
latch are the spec's decision D22). -/
def Obligations.ResetHasTheInvariants : Prop :=
  State.reset.mem.wf ∧ WaitLatchOk State.reset ∧ StackBounded State.reset

/-- 20_memory.md R52: the glyph table is never mutated, in every port call, when GLYPH_WRITE is `fault` (the spec's
decision D14). -/
def Obligations.GlyphTableNeverMutated : Prop :=
  ∀ (c : HostCall) (s t : State), s.glyphWrite = .fault → hostCall c s = .next t →
    t.glyphWrite = .fault ∧ ∀ a, 0x050 ≤ a → a ≤ 0x09F → t.mem.read a = s.mem.read a

/-- 10_state.md R25 (an inference the spec marks as derived): no pc computation of a step wraps, and every return address
is at most 0x1000. -/
def Obligations.StepKeepsStackBounded : Prop :=
  ∀ s t : State, StackBounded s → step s = .next t → StackBounded t ∧
    (s.fault = none → s.pc.toNat ≤ 0xFFE → t.pc.toNat ≤ 0x10FE ∨
      (decodeWord s.fetchWord = .ok .ret ∧ s.stack = []))

/-- 10_state.md R40 (an inference the spec marks as derived): what no instruction can read (ST, the dirty flag, and the
model's reports, notes/assumptions 6) never influences anything else, over any number of steps. It compares two runs that
draw the same bytes, addresses and keys at the same count: the model's choice (notes/assumptions 3, 4, 5). -/
def Obligations.HiddenStateNeverLeaks : Prop :=
  ∀ (k : Nat) (s u : State), SameButHidden s u →
    ∃ t v, core.run k s = .next t ∧ core.run k u = .next v ∧ SameButHidden t v

/-- Every state of every run, with any font, image and schedule of port calls, has canonical memory, a latch that is
Armed only at an LD Vx,K, and bounded return addresses (46_keyboard.md R165, 10_state.md R25, 70_reset_and_hazards.md
R192; inferences the spec marks as derived, and its decisions D22, D29 and D30; notes/assumptions 10). -/
def Obligations.ReachableStatesHaveTheInvariants : Prop :=
  ∀ s : State, Reachable s → s.mem.wf ∧ WaitLatchOk s ∧ StackBounded s

/-- The end of a run repeats unchanged under `step()`: the definition of the end is the spec's decision D34
(92_eei_decisions.md). -/
def Obligations.EndOfRunRepeats : Prop :=
  ∀ s : State, AtEnd s → ∀ k, core.run k s = .next s
end

