-- ==== Sys2Proof/Laws/Decode.lean ====
section
/-! SUPPORT. The fields of the words the formats make, and the bytes of a word (30_encoding.md rules R71, R74). -/

namespace Sys2Proof

/-- The upper part of a concatenation. -/
theorem extract_upper {m n : Nat} (a : BitVec m) (b : BitVec n) : (a ++ b).extractLsb' n m = a := by
  ext i h
  simp [BitVec.getLsbD_append, BitVec.getLsbD_eq_getElem h]

/-- The lower part of a concatenation. -/
theorem extract_lower {m n : Nat} (a : BitVec m) (b : BitVec n) : (a ++ b).extractLsb' 0 n = b := by
  ext i h
  simp [BitVec.getLsbD_append, h]

/-- A field of the upper part of a concatenation. -/
theorem extract_within {m n k lo : Nat} (a : BitVec m) (b : BitVec n) (_ : lo + k ≤ m) :
    (a ++ b).extractLsb' (n + lo) k = a.extractLsb' lo k := by
  ext i hi
  simp only [BitVec.getElem_extractLsb', BitVec.getLsbD_append]
  rw [if_neg (by omega)]
  congr 1
  omega

@[simp] theorem nibble_toFin (k : Fin 16) : (nibble k).toFin = k := rfl

/-! ### Format A -/

@[simp] theorem first_wordA (f : BitVec 4) (nnn : Addr12) : Word.first (wordA f nnn) = f := extract_upper f nnn
@[simp] theorem nnn_wordA (f : BitVec 4) (nnn : Addr12) : Word.nnn (wordA f nnn) = nnn := extract_lower f nnn

/-! ### Formats XB and XD -/

@[simp] theorem first_wordXB (f : BitVec 4) (x : RegIdx) (nn : Byte) : Word.first (wordXB f x nn) = f :=
  (extract_within (n := 8) (lo := 4) (f ++ nibble x) nn (by decide)).trans (extract_upper f (nibble x))

@[simp] theorem x_wordXB (f : BitVec 4) (x : RegIdx) (nn : Byte) : Word.x (wordXB f x nn) = x := by
  have h : (wordXB f x nn).extractLsb' 8 4 = nibble x :=
    (extract_within (n := 8) (lo := 0) (f ++ nibble x) nn (by decide)).trans (extract_lower f (nibble x))
  rw [Word.x, h, nibble_toFin]

@[simp] theorem nn_wordXB (f : BitVec 4) (x : RegIdx) (nn : Byte) : Word.nn (wordXB f x nn) = nn :=
  extract_lower (f ++ nibble x) nn

/-! ### Formats XY and XYN -/

@[simp] theorem first_wordXYN (f : BitVec 4) (x y : RegIdx) (n : BitVec 4) : Word.first (wordXYN f x y n) = f :=
  (extract_within (n := 4) (lo := 8) ((f ++ nibble x) ++ nibble y) n (by decide)).trans
    ((extract_within (n := 4) (lo := 4) (f ++ nibble x) (nibble y) (by decide)).trans (extract_upper f (nibble x)))

@[simp] theorem x_wordXYN (f : BitVec 4) (x y : RegIdx) (n : BitVec 4) : Word.x (wordXYN f x y n) = x := by
  have h : (wordXYN f x y n).extractLsb' 8 4 = nibble x :=
    (extract_within (n := 4) (lo := 4) ((f ++ nibble x) ++ nibble y) n (by decide)).trans
      ((extract_within (n := 4) (lo := 0) (f ++ nibble x) (nibble y) (by decide)).trans (extract_lower f (nibble x)))
  rw [Word.x, h, nibble_toFin]

@[simp] theorem y_wordXYN (f : BitVec 4) (x y : RegIdx) (n : BitVec 4) : Word.y (wordXYN f x y n) = y := by
  have h : (wordXYN f x y n).extractLsb' 4 4 = nibble y :=
    (extract_within (n := 4) (lo := 0) ((f ++ nibble x) ++ nibble y) n (by decide)).trans
      (extract_lower (f ++ nibble x) (nibble y))
  rw [Word.y, h, nibble_toFin]

@[simp] theorem low4_wordXYN (f : BitVec 4) (x y : RegIdx) (n : BitVec 4) : Word.low4 (wordXYN f x y n) = n :=
  extract_lower ((f ++ nibble x) ++ nibble y) n

@[simp] theorem n_wordXYN (f : BitVec 4) (x y : RegIdx) (n : Fin 16) : Word.n (wordXYN f x y (nibble n)) = n := by
  have h : (wordXYN f x y (nibble n)).extractLsb' 0 4 = nibble n := extract_lower ((f ++ nibble x) ++ nibble y) (nibble n)
  rw [Word.n, h, nibble_toFin]

/-! ### Bytes -/

/-- The two bytes of a word, joined big-endian, are the word. -/
@[simp] theorem wordOfBytes_bytesOfWord (w : Word) : wordOfBytes (w.extractLsb' 8 8) (w.extractLsb' 0 8) = w := by
  unfold wordOfBytes
  ext i h
  rw [BitVec.getElem_append]
  split
  · simp [BitVec.getLsbD_eq_getElem h]
  · have e : 8 + (i - 8) = i := by omega
    simp [e, BitVec.getLsbD_eq_getElem h]

/-- The number of two bytes joined big-endian. -/
theorem wordOfBytes_toNat (hi lo : Byte) : (wordOfBytes hi lo).toNat = 256 * hi.toNat + lo.toNat := by
  rw [wordOfBytes, BitVec.toNat_append, Nat.shiftLeft_eq, Nat.mul_comm,
    ← Nat.two_pow_add_eq_or_of_lt lo.isLt hi.toNat]

/-! ### A word is its fields put together again -/

theorem wordA_of_fields (w : Word) : wordA (Word.first w) (Word.nnn w) = w := by
  unfold wordA Word.first Word.nnn
  ext i h
  rw [BitVec.getElem_append]
  split
  · simp [BitVec.getLsbD_eq_getElem h]
  · have e : 12 + (i - 12) = i := by omega
    simp [e, BitVec.getLsbD_eq_getElem h]

theorem nibble_x (w : Word) : nibble (Word.x w) = w.extractLsb' 8 4 := rfl
theorem nibble_y (w : Word) : nibble (Word.y w) = w.extractLsb' 4 4 := rfl
theorem nibble_n (w : Word) : nibble (Word.n w) = Word.low4 w := rfl

theorem wordXB_of_fields (w : Word) : wordXB (Word.first w) (Word.x w) (Word.nn w) = w := by
  unfold wordXB Word.first Word.nn
  rw [nibble_x]
  ext i h
  rw [BitVec.getElem_append]
  split
  · simp [BitVec.getLsbD_eq_getElem h]
  · rw [BitVec.getElem_append]
    split
    · have e : 8 + (i - 8) = i := by omega
      simp [e, BitVec.getLsbD_eq_getElem h]
    · have e : 12 + (i - 8 - 4) = i := by omega
      simp [e, BitVec.getLsbD_eq_getElem h]

theorem wordXYN_of_fields (w : Word) : wordXYN (Word.first w) (Word.x w) (Word.y w) (Word.low4 w) = w := by
  unfold wordXYN Word.first Word.low4
  rw [nibble_x, nibble_y]
  ext i h
  rw [BitVec.getElem_append]
  split
  · simp [BitVec.getLsbD_eq_getElem h]
  · rw [BitVec.getElem_append]
    split
    · have e : 4 + (i - 4) = i := by omega
      simp [e, BitVec.getLsbD_eq_getElem h]
    · rw [BitVec.getElem_append]
      split
      · have e : 8 + (i - 4 - 4) = i := by omega
        simp [e, BitVec.getLsbD_eq_getElem h]
      · have e : 12 + (i - 4 - 4 - 4) = i := by omega
        simp [e, BitVec.getLsbD_eq_getElem h]

end Sys2Proof
end

