-- ==== Sys2Proof/Laws/Memory.lean ====
section
/-! SUPPORT. Memory: what a read answers after a write, that every operation keeps the canonical form, and what an unlisted
address reads as. -/

namespace Sys2Proof.Machine

/-! ### Reading after inserting and erasing -/

theorem Memory.read_insert (m : Memory) (a c : Nat) (b : Byte) :
    (Memory.insert a b m).read c = if c = a then b else m.read c := by
  induction m with
  | nil => simp [Memory.insert, Memory.read, eq_comm]
  | cons e m ih =>
    simp only [Memory.insert]
    split
    · rename_i h
      simp [Memory.read, eq_comm]
    · split
      · rename_i h
        simp only [Memory.read, ← h, eq_comm (a := a)]
        split <;> rfl
      · rename_i h1 h2
        simp only [Memory.read, ih]
        split
        · rename_i h3
          rw [if_neg (by omega)]
        · rfl

theorem Memory.read_erase (m : Memory) (a c : Nat) :
    (Memory.erase a m).read c = if c = a then Memory.unlisted a else m.read c := by
  induction m with
  | nil => by_cases h : c = a <;> simp [Memory.erase, Memory.read, h]
  | cons e m ih =>
    simp only [Memory.erase]
    split
    · rename_i h
      by_cases hc : c = a
      · rw [ih, if_pos hc, if_pos hc]
      · rw [ih, if_neg hc, if_neg hc, Memory.read, h, if_neg (Ne.symm hc)]
    · rename_i h
      simp only [Memory.read, ih]
      by_cases hc : c = a
      · simp [hc, h]
      · simp [hc]

/-! ### Writing -/

/-- A read after a write: the value at the address written, every other byte as before (20_memory.md rule R61). -/
theorem Memory.read_write (m : Memory) (a c : Nat) (b : Byte) (h : a < memSize) :
    (m.write a b).read c = if c = a then b else m.read c := by
  simp only [Memory.write, h, if_true]
  split
  · rename_i hb
    simp [Memory.read_erase, hb]
  · exact Memory.read_insert m a c b

theorem Memory.read_write_of_ne (m : Memory) (a c : Nat) (b : Byte) (h : c ≠ a) : (m.write a b).read c = m.read c := by
  by_cases ha : a < memSize
  · simp [Memory.read_write m a c b ha, h]
  · simp [Memory.write, ha]

/-- A read below or above the bytes written. -/
theorem Memory.read_writeBytes_outside (bs : List Byte) (m : Memory) (a c : Nat) (h : c < a ∨ a + bs.length ≤ c) :
    (m.writeBytes a bs).read c = m.read c := by
  induction bs generalizing m a with
  | nil => rfl
  | cons b bs ih =>
    simp only [List.length_cons] at h
    rw [Memory.writeBytes, ih _ _ (by omega), Memory.read_write_of_ne _ _ _ _ (by omega)]

/-- A read of a byte written. -/
theorem Memory.read_writeBytes_inside (bs : List Byte) (m : Memory) (a k : Nat) (hk : k < bs.length)
    (h : a + bs.length ≤ memSize) : (m.writeBytes a bs).read (a + k) = bs[k] := by
  induction bs generalizing m a k with
  | nil => simp at hk
  | cons b bs ih =>
    simp only [List.length_cons] at h hk
    cases k with
    | zero =>
      rw [Memory.writeBytes, Memory.read_writeBytes_outside _ _ _ _ (by omega),
        Memory.read_write _ _ _ _ (by omega)]
      simp
    | succ k =>
      have e : a + (k + 1) = (a + 1) + k := by omega
      rw [Memory.writeBytes, e, ih _ _ _ (by omega) (by omega)]
      simp

/-! ### The canonical form -/

theorem Memory.mem_insert {m : Memory} {a : Nat} {b : Byte} {c : Host.Cell} (h : c ∈ Memory.insert a b m) :
    c = (a, b) ∨ c ∈ m := by
  induction m with
  | nil => simpa [Memory.insert] using h
  | cons e m ih =>
    simp only [Memory.insert] at h
    split at h
    · simpa using h
    · split at h
      · rcases List.mem_cons.mp h with h | h
        · exact .inl h
        · exact .inr (List.mem_cons_of_mem _ h)
      · rcases List.mem_cons.mp h with h | h
        · exact .inr (by simp [h])
        · exact (ih h).imp id (List.mem_cons_of_mem _)

theorem Memory.mem_erase {m : Memory} {a : Nat} {c : Host.Cell} (h : c ∈ Memory.erase a m) : c ∈ m := by
  induction m with
  | nil => exact h
  | cons e m ih =>
    simp only [Memory.erase] at h
    split at h
    · exact List.mem_cons_of_mem _ (ih h)
    · rcases List.mem_cons.mp h with h | h
      · simp [h]
      · exact List.mem_cons_of_mem _ (ih h)

theorem Memory.insert_rising (m : Memory) (a : Nat) (b : Byte) (h : m.Pairwise (fun c d => c.1 < d.1)) :
    (Memory.insert a b m).Pairwise (fun c d => c.1 < d.1) := by
  induction m with
  | nil => simp [Memory.insert]
  | cons e m ih =>
    have ⟨h1, h2⟩ := List.pairwise_cons.mp h
    simp only [Memory.insert]
    split
    · rename_i ha
      refine List.pairwise_cons.mpr ⟨fun d hd => ?_, h⟩
      rcases List.mem_cons.mp hd with hd | hd
      · simpa [hd] using ha
      · exact Nat.lt_trans ha (h1 d hd)
    · split
      · rename_i ha
        exact List.pairwise_cons.mpr ⟨fun d hd => by simpa [ha] using h1 d hd, h2⟩
      · rename_i ha hb
        refine List.pairwise_cons.mpr ⟨fun d hd => ?_, ih h2⟩
        rcases Memory.mem_insert hd with hd | hd
        · simp only [hd]; omega
        · exact h1 d hd

theorem Memory.erase_rising (m : Memory) (a : Nat) (h : m.Pairwise (fun c d => c.1 < d.1)) :
    (Memory.erase a m).Pairwise (fun c d => c.1 < d.1) := by
  induction m with
  | nil => simp [Memory.erase]
  | cons e m ih =>
    have ⟨h1, h2⟩ := List.pairwise_cons.mp h
    simp only [Memory.erase]
    split
    · exact ih h2
    · exact List.pairwise_cons.mpr ⟨fun d hd => h1 d (Memory.mem_erase hd), ih h2⟩

/-- A write keeps the canonical form. -/
theorem Memory.write_wf (m : Memory) (a : Nat) (b : Byte) (h : m.wf) : (m.write a b).wf := by
  unfold Memory.write
  split
  · rename_i ha
    split
    · exact ⟨Memory.erase_rising m a h.1, fun c hc => h.2 c (Memory.mem_erase hc)⟩
    · rename_i hb
      refine ⟨Memory.insert_rising m a b h.1, fun c hc => ?_⟩
      rcases Memory.mem_insert hc with hc | hc
      · simpa [hc] using ⟨ha, hb⟩
      · exact h.2 c hc
  · exact h

/-- Writing several bytes keeps the canonical form. -/
theorem Memory.writeBytes_wf (bs : List Byte) (m : Memory) (a : Nat) (h : m.wf) : (m.writeBytes a bs).wf := by
  induction bs generalizing m a with
  | nil => exact h
  | cons b bs ih => exact ih _ _ (Memory.write_wf m a b h)

/-- Memory at reset is in canonical form. -/
theorem Memory.reset_wf : Memory.wf ([] : Memory) := ⟨.nil, by simp⟩

/-! ### What an unlisted address reads as -/

theorem standardFont_length : standardFont.length = 80 := by decide

/-- Outside the glyph table an unlisted address reads as zero (20_memory.md rule R51). -/
theorem Memory.unlisted_outside (a : Nat) (h : a < 0x050 ∨ 0x0A0 ≤ a) : Memory.unlisted a = 0 := by
  unfold Memory.unlisted glyphBase
  split
  · have hl := standardFont_length
    rw [List.getD_eq_default _ _ (by omega)]
  · rfl

/-- Writing what unlisted addresses read as leaves an empty memory empty. -/
theorem Memory.writeBytes_unlisted (bs : List Byte) (a : Nat)
    (h : ∀ k, (hk : k < bs.length) → bs[k] = Memory.unlisted (a + k)) : Memory.writeBytes [] a bs = [] := by
  induction bs generalizing a with
  | nil => rfl
  | cons b bs ih =>
    have h0 : b = Memory.unlisted a := h 0 (Nat.succ_pos _)
    have hw : Memory.write [] a b = [] := by
      simp [Memory.write, h0, Memory.erase]
    rw [Memory.writeBytes, hw]
    refine ih (a + 1) fun k hk => ?_
    have := h (k + 1) (Nat.succ_lt_succ hk)
    simpa [Nat.add_assoc, Nat.add_comm 1 k] using this

@[simp] theorem Memory.read_nil (a : Nat) : Memory.read [] a = Memory.unlisted a := rfl

/-- `MemRead` answers exactly inside the extent (20_memory.md rule R56). -/
theorem Memory.read?_eq (m : Memory) (a : Nat) : m.read? a = if a ≤ 0xFFF then some (m.read a) else none := by
  unfold Memory.read? memSize
  simp only [Nat.lt_succ_iff (m := a) (n := 0xFFF)]

end Sys2Proof.Machine
end

