-- ==== Sys2Proof/Laws/State.lean ====
section
/-! SUPPORT. One lemma per field per update of the state, each true by rfl, so that no proof unfolds a record update; and
what the accessors read after an update. -/

namespace Sys2Proof.Machine

variable (s : State)

/-! ### setReg -/

@[simp] theorem State.setReg_v (r : RegIdx) (b : Byte) : (s.setReg r b).v = s.v.set r.val b := rfl
@[simp] theorem State.setReg_i (r : RegIdx) (b : Byte) : (s.setReg r b).i = s.i := rfl
@[simp] theorem State.setReg_pc (r : RegIdx) (b : Byte) : (s.setReg r b).pc = s.pc := rfl
@[simp] theorem State.setReg_stack (r : RegIdx) (b : Byte) : (s.setReg r b).stack = s.stack := rfl
@[simp] theorem State.setReg_dt (r : RegIdx) (b : Byte) : (s.setReg r b).dt = s.dt := rfl
@[simp] theorem State.setReg_st (r : RegIdx) (b : Byte) : (s.setReg r b).st = s.st := rfl
@[simp] theorem State.setReg_mem (r : RegIdx) (b : Byte) : (s.setReg r b).mem = s.mem := rfl
@[simp] theorem State.setReg_disp (r : RegIdx) (b : Byte) : (s.setReg r b).disp = s.disp := rfl
@[simp] theorem State.setReg_dirty (r : RegIdx) (b : Byte) : (s.setReg r b).dirty = s.dirty := rfl
@[simp] theorem State.setReg_keys (r : RegIdx) (b : Byte) : (s.setReg r b).keys = s.keys := rfl
@[simp] theorem State.setReg_wait (r : RegIdx) (b : Byte) : (s.setReg r b).wait = s.wait := rfl
@[simp] theorem State.setReg_fault (r : RegIdx) (b : Byte) : (s.setReg r b).fault = s.fault := rfl
@[simp] theorem State.setReg_glyphWrite (r : RegIdx) (b : Byte) : (s.setReg r b).glyphWrite = s.glyphWrite := rfl
@[simp] theorem State.setReg_draws (r : RegIdx) (b : Byte) : (s.setReg r b).draws = s.draws := rfl
@[simp] theorem State.setReg_reports (r : RegIdx) (b : Byte) : (s.setReg r b).reports = s.reports := rfl

/-! ### setFlag -/

@[simp] theorem State.setFlag_v (c : Bool) : (s.setFlag c).v = s.v.set flagReg.val (flagByte c) := rfl
@[simp] theorem State.setFlag_i (c : Bool) : (s.setFlag c).i = s.i := rfl
@[simp] theorem State.setFlag_pc (c : Bool) : (s.setFlag c).pc = s.pc := rfl
@[simp] theorem State.setFlag_stack (c : Bool) : (s.setFlag c).stack = s.stack := rfl
@[simp] theorem State.setFlag_dt (c : Bool) : (s.setFlag c).dt = s.dt := rfl
@[simp] theorem State.setFlag_st (c : Bool) : (s.setFlag c).st = s.st := rfl
@[simp] theorem State.setFlag_mem (c : Bool) : (s.setFlag c).mem = s.mem := rfl
@[simp] theorem State.setFlag_disp (c : Bool) : (s.setFlag c).disp = s.disp := rfl
@[simp] theorem State.setFlag_dirty (c : Bool) : (s.setFlag c).dirty = s.dirty := rfl
@[simp] theorem State.setFlag_keys (c : Bool) : (s.setFlag c).keys = s.keys := rfl
@[simp] theorem State.setFlag_wait (c : Bool) : (s.setFlag c).wait = s.wait := rfl
@[simp] theorem State.setFlag_fault (c : Bool) : (s.setFlag c).fault = s.fault := rfl
@[simp] theorem State.setFlag_glyphWrite (c : Bool) : (s.setFlag c).glyphWrite = s.glyphWrite := rfl
@[simp] theorem State.setFlag_draws (c : Bool) : (s.setFlag c).draws = s.draws := rfl
@[simp] theorem State.setFlag_reports (c : Bool) : (s.setFlag c).reports = s.reports := rfl

/-! ### advance -/

@[simp] theorem State.advance_v : s.advance.v = s.v := rfl
@[simp] theorem State.advance_i : s.advance.i = s.i := rfl
@[simp] theorem State.advance_pc : s.advance.pc = s.pc + 2 := rfl
@[simp] theorem State.advance_stack : s.advance.stack = s.stack := rfl
@[simp] theorem State.advance_dt : s.advance.dt = s.dt := rfl
@[simp] theorem State.advance_st : s.advance.st = s.st := rfl
@[simp] theorem State.advance_mem : s.advance.mem = s.mem := rfl
@[simp] theorem State.advance_disp : s.advance.disp = s.disp := rfl
@[simp] theorem State.advance_dirty : s.advance.dirty = s.dirty := rfl
@[simp] theorem State.advance_keys : s.advance.keys = s.keys := rfl
@[simp] theorem State.advance_wait : s.advance.wait = s.wait := rfl
@[simp] theorem State.advance_fault : s.advance.fault = s.fault := rfl
@[simp] theorem State.advance_glyphWrite : s.advance.glyphWrite = s.glyphWrite := rfl
@[simp] theorem State.advance_draws : s.advance.draws = s.draws := rfl
@[simp] theorem State.advance_reports : s.advance.reports = s.reports := rfl

/-! ### skipIf -/

@[simp] theorem State.skipIf_v (c : Bool) : (s.skipIf c).v = s.v := rfl
@[simp] theorem State.skipIf_i (c : Bool) : (s.skipIf c).i = s.i := rfl
@[simp] theorem State.skipIf_pc (c : Bool) : (s.skipIf c).pc = if c then s.pc + 4 else s.pc + 2 := rfl
@[simp] theorem State.skipIf_stack (c : Bool) : (s.skipIf c).stack = s.stack := rfl
@[simp] theorem State.skipIf_dt (c : Bool) : (s.skipIf c).dt = s.dt := rfl
@[simp] theorem State.skipIf_st (c : Bool) : (s.skipIf c).st = s.st := rfl
@[simp] theorem State.skipIf_mem (c : Bool) : (s.skipIf c).mem = s.mem := rfl
@[simp] theorem State.skipIf_disp (c : Bool) : (s.skipIf c).disp = s.disp := rfl
@[simp] theorem State.skipIf_dirty (c : Bool) : (s.skipIf c).dirty = s.dirty := rfl
@[simp] theorem State.skipIf_keys (c : Bool) : (s.skipIf c).keys = s.keys := rfl
@[simp] theorem State.skipIf_wait (c : Bool) : (s.skipIf c).wait = s.wait := rfl
@[simp] theorem State.skipIf_fault (c : Bool) : (s.skipIf c).fault = s.fault := rfl
@[simp] theorem State.skipIf_glyphWrite (c : Bool) : (s.skipIf c).glyphWrite = s.glyphWrite := rfl
@[simp] theorem State.skipIf_draws (c : Bool) : (s.skipIf c).draws = s.draws := rfl
@[simp] theorem State.skipIf_reports (c : Bool) : (s.skipIf c).reports = s.reports := rfl

/-! ### report -/

@[simp] theorem State.report_v (r : Report) : (s.report r).v = s.v := rfl
@[simp] theorem State.report_i (r : Report) : (s.report r).i = s.i := rfl
@[simp] theorem State.report_pc (r : Report) : (s.report r).pc = s.pc := rfl
@[simp] theorem State.report_stack (r : Report) : (s.report r).stack = s.stack := rfl
@[simp] theorem State.report_dt (r : Report) : (s.report r).dt = s.dt := rfl
@[simp] theorem State.report_st (r : Report) : (s.report r).st = s.st := rfl
@[simp] theorem State.report_mem (r : Report) : (s.report r).mem = s.mem := rfl
@[simp] theorem State.report_disp (r : Report) : (s.report r).disp = s.disp := rfl
@[simp] theorem State.report_dirty (r : Report) : (s.report r).dirty = s.dirty := rfl
@[simp] theorem State.report_keys (r : Report) : (s.report r).keys = s.keys := rfl
@[simp] theorem State.report_wait (r : Report) : (s.report r).wait = s.wait := rfl
@[simp] theorem State.report_fault (r : Report) : (s.report r).fault = s.fault := rfl
@[simp] theorem State.report_glyphWrite (r : Report) : (s.report r).glyphWrite = s.glyphWrite := rfl
@[simp] theorem State.report_draws (r : Report) : (s.report r).draws = s.draws := rfl
@[simp] theorem State.report_reports (r : Report) : (s.report r).reports = r :: s.reports := rfl

/-! ### drawn -/

@[simp] theorem State.drawn_v : s.drawn.v = s.v := rfl
@[simp] theorem State.drawn_i : s.drawn.i = s.i := rfl
@[simp] theorem State.drawn_pc : s.drawn.pc = s.pc := rfl
@[simp] theorem State.drawn_stack : s.drawn.stack = s.stack := rfl
@[simp] theorem State.drawn_dt : s.drawn.dt = s.dt := rfl
@[simp] theorem State.drawn_st : s.drawn.st = s.st := rfl
@[simp] theorem State.drawn_mem : s.drawn.mem = s.mem := rfl
@[simp] theorem State.drawn_disp : s.drawn.disp = s.disp := rfl
@[simp] theorem State.drawn_dirty : s.drawn.dirty = s.dirty := rfl
@[simp] theorem State.drawn_keys : s.drawn.keys = s.keys := rfl
@[simp] theorem State.drawn_wait : s.drawn.wait = s.wait := rfl
@[simp] theorem State.drawn_fault : s.drawn.fault = s.fault := rfl
@[simp] theorem State.drawn_glyphWrite : s.drawn.glyphWrite = s.glyphWrite := rfl
@[simp] theorem State.drawn_draws : s.drawn.draws = s.draws + 1 := rfl
@[simp] theorem State.drawn_reports : s.drawn.reports = s.reports := rfl

/-! ### writeBack -/

@[simp] theorem State.writeBack_v (x : RegIdx) (b : Byte) (c : Bool) : (s.writeBack x b c).v = (s.v.set x.val b).set flagReg.val (flagByte c) := rfl
@[simp] theorem State.writeBack_i (x : RegIdx) (b : Byte) (c : Bool) : (s.writeBack x b c).i = s.i := rfl
@[simp] theorem State.writeBack_pc (x : RegIdx) (b : Byte) (c : Bool) : (s.writeBack x b c).pc = s.pc + 2 := rfl
@[simp] theorem State.writeBack_stack (x : RegIdx) (b : Byte) (c : Bool) : (s.writeBack x b c).stack = s.stack := rfl
@[simp] theorem State.writeBack_dt (x : RegIdx) (b : Byte) (c : Bool) : (s.writeBack x b c).dt = s.dt := rfl
@[simp] theorem State.writeBack_st (x : RegIdx) (b : Byte) (c : Bool) : (s.writeBack x b c).st = s.st := rfl
@[simp] theorem State.writeBack_mem (x : RegIdx) (b : Byte) (c : Bool) : (s.writeBack x b c).mem = s.mem := rfl
@[simp] theorem State.writeBack_disp (x : RegIdx) (b : Byte) (c : Bool) : (s.writeBack x b c).disp = s.disp := rfl
@[simp] theorem State.writeBack_dirty (x : RegIdx) (b : Byte) (c : Bool) : (s.writeBack x b c).dirty = s.dirty := rfl
@[simp] theorem State.writeBack_keys (x : RegIdx) (b : Byte) (c : Bool) : (s.writeBack x b c).keys = s.keys := rfl
@[simp] theorem State.writeBack_wait (x : RegIdx) (b : Byte) (c : Bool) : (s.writeBack x b c).wait = s.wait := rfl
@[simp] theorem State.writeBack_fault (x : RegIdx) (b : Byte) (c : Bool) : (s.writeBack x b c).fault = s.fault := rfl
@[simp] theorem State.writeBack_glyphWrite (x : RegIdx) (b : Byte) (c : Bool) : (s.writeBack x b c).glyphWrite = s.glyphWrite := rfl
@[simp] theorem State.writeBack_draws (x : RegIdx) (b : Byte) (c : Bool) : (s.writeBack x b c).draws = s.draws := rfl
@[simp] theorem State.writeBack_reports (x : RegIdx) (b : Byte) (c : Bool) : (s.writeBack x b c).reports = s.reports := rfl

/-! ### The accessors -/

/-- A record update that keeps V keeps every register. -/
@[simp] theorem State.reg_of_v (r : RegIdx) (i pc : Word) (stack : List Word) (dt st : Byte) (mem : Memory) (disp : Display)
    (dirty : Bool) (keys : Vector Bool 16) (wait : Wait) (fault : Option Fault) (gw : GlyphWrite) (draws : Nat)
    (reports : List Report) :
    State.reg ⟨s.v, i, pc, stack, dt, st, mem, disp, dirty, keys, wait, fault, gw, draws, reports⟩ r = s.reg r := rfl

/-- A record update that keeps the input state keeps every key. -/
@[simp] theorem State.key_of_keys (k : KeyIdx) (v : Vector Byte 16) (i pc : Word) (stack : List Word) (dt st : Byte)
    (mem : Memory) (disp : Display) (dirty : Bool) (wait : Wait) (fault : Option Fault) (gw : GlyphWrite) (draws : Nat)
    (reports : List Report) :
    State.key ⟨v, i, pc, stack, dt, st, mem, disp, dirty, s.keys, wait, fault, gw, draws, reports⟩ k = s.key k := rfl

/-- A register after a register write. -/
theorem State.reg_setReg (x r : RegIdx) (b : Byte) : (s.setReg x b).reg r = if r = x then b else s.reg r := by
  simp only [State.reg, State.setReg, Vector.getElem_set, Fin.ext_iff, eq_comm (a := x.val)]

@[simp] theorem State.reg_setReg_same (x : RegIdx) (b : Byte) : (s.setReg x b).reg x = b := by
  simp [State.reg_setReg]

theorem State.reg_setReg_of_ne (x r : RegIdx) (b : Byte) (h : r ≠ x) : (s.setReg x b).reg r = s.reg r := by
  simp [State.reg_setReg, h]

@[simp] theorem State.reg_setFlag_flag (c : Bool) : (s.setFlag c).reg flagReg = flagByte c :=
  State.reg_setReg_same s flagReg (flagByte c)

theorem State.reg_setFlag_of_ne (r : RegIdx) (c : Bool) (h : r ≠ flagReg) : (s.setFlag c).reg r = s.reg r :=
  State.reg_setReg_of_ne s flagReg r (flagByte c) h

@[simp] theorem State.reg_advance (r : RegIdx) : s.advance.reg r = s.reg r := rfl
@[simp] theorem State.reg_skipIf (r : RegIdx) (c : Bool) : (s.skipIf c).reg r = s.reg r := rfl
@[simp] theorem State.reg_report (r : RegIdx) (p : Report) : (s.report p).reg r = s.reg r := rfl
@[simp] theorem State.reg_drawn (r : RegIdx) : s.drawn.reg r = s.reg r := rfl

/-- The flag a result-and-flag instruction leaves, whatever its result register (10_state.md rule R23). -/
@[simp] theorem State.reg_writeBack_flag (x : RegIdx) (b : Byte) (c : Bool) :
    (s.writeBack x b c).reg flagReg = flagByte c := State.reg_setFlag_flag (s.setReg x b) c

/-- The result a result-and-flag instruction leaves in a register other than VF. -/
theorem State.reg_writeBack_result (x : RegIdx) (b : Byte) (c : Bool) (h : x ≠ flagReg) :
    (s.writeBack x b c).reg x = b := by
  simp [State.writeBack, State.reg_setFlag_of_ne, h]

/-- The other registers after a result-and-flag instruction. -/
theorem State.reg_writeBack_of_ne (x r : RegIdx) (b : Byte) (c : Bool) (hx : r ≠ x) (hf : r ≠ flagReg) :
    (s.writeBack x b c).reg r = s.reg r := by
  simp [State.writeBack, State.reg_setFlag_of_ne, State.reg_setReg_of_ne, hx, hf]

@[simp] theorem State.key_setReg (k : KeyIdx) (r : RegIdx) (b : Byte) : (s.setReg r b).key k = s.key k := rfl
@[simp] theorem State.key_advance (k : KeyIdx) : s.advance.key k = s.key k := rfl

/-- The keys that are down are the members of `keysDown`. -/
@[simp] theorem State.mem_keysDown (k : KeyIdx) : k ∈ s.keysDown ↔ s.key k = true := by
  have all : ∀ j : KeyIdx, j ∈ allRegs := by decide
  simp [State.keysDown, all k]

end Sys2Proof.Machine
end

