-- ==== Sys2Proof/Laws/Ops.lean ====
section
/-! SUPPORT. One lemma for each shared operation that says everything it can do. -/

namespace Sys2Proof.Machine

/-- Raising a fault answers the next state with the fault record written (60_exceptions.md rule R172). -/
theorem raiseFault_eq (k : Fault) (s : State) : raiseFault k s = .next { s with fault := some k } := rfl

/-- A store at I: a fault past the extent, a fault into the glyph table, or the bytes written and pc + 2. -/
theorem storeAtI_cases (bs : List Byte) (s : State) :
    (s.i.toNat + bs.length > memSize ∧ storeAtI bs s = .next { s with fault := some .memoryOutOfBounds }) ∨
    (s.i.toNat + bs.length ≤ memSize ∧ s.glyphWrite = .fault ∧
      meetsGlyphs s.i.toNat (s.i.toNat + bs.length - 1) = true ∧
      storeAtI bs s = .next { s with fault := some .glyphWrite }) ∨
    (s.i.toNat + bs.length ≤ memSize ∧
      ¬(s.glyphWrite = .fault ∧ meetsGlyphs s.i.toNat (s.i.toNat + bs.length - 1) = true) ∧
      storeAtI bs s = .next { s with mem := s.mem.writeBytes s.i.toNat bs, pc := s.pc + 2 }) := by
  unfold storeAtI
  split
  · rename_i h
    exact .inl ⟨h, rfl⟩
  · rename_i h
    split
    · rename_i hg
      exact .inr (.inl ⟨by omega, hg.1, hg.2, rfl⟩)
    · rename_i hg
      exact .inr (.inr ⟨by omega, hg, rfl⟩)

/-- The range meets the glyph table. -/
theorem meetsGlyphs_iff (lo hi : Nat) : meetsGlyphs lo hi = true ↔ lo ≤ 0x09F ∧ 0x050 ≤ hi := by
  rw [meetsGlyphs, Bool.and_eq_true, decide_eq_true_iff, decide_eq_true_iff]

/-- A store past the extent. -/
theorem storeAtI_past (bs : List Byte) (s : State) (h : memSize < s.i.toNat + bs.length) :
    storeAtI bs s = .next { s with fault := some .memoryOutOfBounds } := by
  unfold storeAtI
  rw [if_pos h, raiseFault_eq]

/-- A store in bounds into the glyph table when GLYPH_WRITE is `fault`. -/
theorem storeAtI_glyph (bs : List Byte) (s : State) (hm : s.i.toNat + bs.length ≤ memSize) (hg : s.glyphWrite = .fault)
    (lo : s.i.toNat ≤ 0x09F) (hi : 0x050 ≤ s.i.toNat + bs.length - 1) :
    storeAtI bs s = .next { s with fault := some .glyphWrite } := by
  unfold storeAtI
  rw [if_neg (by omega), if_pos ⟨hg, (meetsGlyphs_iff _ _).mpr ⟨lo, hi⟩⟩, raiseFault_eq]

/-- The bytes LD [I],Vx stores. -/
@[simp] theorem storedRegs_length (x : RegIdx) (s : State) : ((regsUpTo x).map s.reg).length = x.val + 1 := by
  revert x
  simp only [List.length_map]
  decide

theorem flagByte_toNat (c : Bool) : (flagByte c).toNat = c.toNat := by cases c <;> rfl

/-- The registers V0 to Vx are those with an index of at most x. -/
theorem mem_regsUpTo (x r : RegIdx) : r ∈ regsUpTo x ↔ r ≤ x := by revert x r; decide

theorem regsUpTo_length (x : RegIdx) : (regsUpTo x).length = x.val + 1 := by revert x; decide

/-- The k-th register of V0 to Vx is Vk. -/
theorem regsUpTo_getElem (x : RegIdx) (k : Nat) (h : k < (regsUpTo x).length) :
    ((regsUpTo x)[k]).val = k := by
  revert k
  revert x
  decide

/-- A load leaves a register that is not listed alone. -/
theorem loadFrom_of_not_mem (m : Memory) (base : Nat) (rs : List RegIdx) (v : Vector Byte 16) (r : RegIdx)
    (h : r ∉ rs) : (loadFrom m base rs v)[r.val] = v[r.val] := by
  induction rs generalizing v with
  | nil => rfl
  | cons q rs ih =>
    simp only [List.mem_cons, not_or] at h
    rw [loadFrom, ih _ h.2, Vector.getElem_set_ne]
    exact fun e => h.1 (Fin.ext e.symm)

/-- A load fills a listed register with its byte. -/
theorem loadFrom_of_mem (m : Memory) (base : Nat) (rs : List RegIdx) (v : Vector Byte 16) (r : RegIdx)
    (h : r ∈ rs) : (loadFrom m base rs v)[r.val] = m.read (base + r.val) := by
  induction rs generalizing v with
  | nil => simp at h
  | cons q rs ih =>
    rw [loadFrom]
    by_cases hr : r ∈ rs
    · exact ih _ hr
    · have e : r = q := by simpa [hr] using h
      rw [loadFrom_of_not_mem _ _ _ _ _ hr]
      simp [e]

/-- A digit store writes three bytes. -/
@[simp] theorem bcdDigits_length (b : Byte) : (bcdDigits b).length = 3 := rfl

/-- The start cell of a sprite (44_display.md rule R142: AND 63, AND 31). -/
theorem startCol_eq (b : Byte) : startCol b = b.toNat % 64 := by
  rw [startCol, BitVec.toNat_and]
  exact Nat.and_two_pow_sub_one_eq_mod b.toNat 6

theorem startRow_eq (b : Byte) : startRow b = b.toNat % 32 := by
  rw [startRow, BitVec.toNat_and]
  exact Nat.and_two_pow_sub_one_eq_mod b.toNat 5

theorem zext12_toNat (a : Addr12) : (zext12 a).toNat = a.toNat := by
  simp only [zext12, BitVec.toNat_setWidth]
  exact Nat.mod_eq_of_lt (by omega)

theorem zext8_toNat (b : Byte) : (zext8 b).toNat = b.toNat := by
  simp only [zext8, BitVec.toNat_setWidth]
  exact Nat.mod_eq_of_lt (by omega)

end Sys2Proof.Machine
end

