-- ==== Sys2Proof/Laws/Display.lean ====
section
/-! SUPPORT. The display: reading a cell after writing one, and what drawing a row and a sprite does to a cell. -/

namespace Sys2Proof.Machine

/-- A cell after a cell write. -/
theorem Display.cell_setCell (d : Display) (ax cx : Fin 64) (ay cy : Fin 32) (b : Bool) :
    (d.setCell ax ay b).cell cx cy = if cx = ax ∧ cy = ay then b else d.cell cx cy := by
  simp only [Display.cell, Display.setCell, Vector.getElem_set, Fin.ext_iff]
  by_cases hx : ax.val = cx.val
  · by_cases hy : ay.val = cy.val
    · simp [hx, hy]
    · simp [hx, hy, Ne.symm hy]
  · simp [hx, Ne.symm hx]

@[simp] theorem Display.cell_blank (cx : Fin 64) (cy : Fin 32) : Display.blank.cell cx cy = false := by
  simp [Display.cell, Display.blank]

/-- Two displays with the same cells are the same data. -/
theorem Display.ext_cell (d e : Display) (h : ∀ cx cy, d.cell cx cy = e.cell cx cy) : d = e := by
  apply Vector.ext
  intro cx hx
  apply Vector.ext
  intro cy hy
  exact h ⟨cx, hx⟩ ⟨cy, hy⟩

/-- A toggle flips its cell and leaves every other. -/
theorem Canvas.toggle_cell (c : Canvas) (ax cx : Fin 64) (ay cy : Fin 32) :
    (c.toggle ax ay).disp.cell cx cy = if cx = ax ∧ cy = ay then !c.disp.cell cx cy else c.disp.cell cx cy := by
  unfold Canvas.toggle
  split <;> rename_i h <;> simp only [Display.cell_setCell] <;> split <;> rename_i e <;> simp_all

/-- A toggle reports a collision when its cell was on. -/
theorem Canvas.toggle_hit (c : Canvas) (ax : Fin 64) (ay : Fin 32) :
    (c.toggle ax ay).hit = (c.hit || c.disp.cell ax ay) := by
  unfold Canvas.toggle
  split <;> rename_i h <;> simp_all

/-- What drawing columns c to c + k - 1 of a sprite row does to a cell. -/
theorem drawCols_cell (b : Byte) (cx0 : Nat) (cy : Fin 32) (k c : Nat) (cv : Canvas) (ax : Fin 64) (ay : Fin 32) :
    (drawCols b cx0 cy (List.range' c k) cv).disp.cell ax ay =
      (cv.disp.cell ax ay ^^
        (decide (ay = cy) && decide (cx0 + c ≤ ax.val) && decide (ax.val < cx0 + c + k) && spriteBit b (ax.val - cx0))) := by
  induction k generalizing c cv with
  | zero =>
    by_cases h : cx0 + c ≤ ax.val
    · have h2 : ¬ ax.val < cx0 + c := by omega
      simp [drawCols, h2]
    · simp [drawCols, h]
  | succ k ih =>
    simp only [List.range'_succ, drawCols]
    split
    · rename_i hb
      rw [ih]
      by_cases hs : ax.val = cx0 + c
      · have e : ax.val - cx0 = c := by omega
        have e2 : ax = ⟨cx0 + c, hb⟩ := Fin.ext hs
        cases hbit : spriteBit b c <;> by_cases hy : ay = cy <;> simp [hbit, hy, Canvas.toggle_cell, e2]
      · have e2 : ax ≠ ⟨cx0 + c, hb⟩ := fun h => hs (congrArg Fin.val h)
        have h1 : cx0 + (c + 1) ≤ ax.val ↔ cx0 + c ≤ ax.val := by omega
        have h2 : ax.val < cx0 + (c + 1) + k ↔ ax.val < cx0 + c + (k + 1) := by omega
        have h3 : (if spriteBit b c = true then cv.toggle ⟨cx0 + c, hb⟩ cy else cv).disp.cell ax ay = cv.disp.cell ax ay := by
          split
          · simp [Canvas.toggle_cell, e2]
          · rfl
        rw [h3]
        simp only [h1, h2]
    · rename_i hb
      have h1 : ¬ cx0 + c ≤ ax.val := by omega
      simp [h1]

/-- When drawing columns c to c + k - 1 of a sprite row reports a collision. -/
theorem drawCols_hit (b : Byte) (cx0 : Nat) (cy : Fin 32) (k c : Nat) (cv : Canvas) :
    (drawCols b cx0 cy (List.range' c k) cv).hit = true ↔ cv.hit = true ∨
      ∃ ax : Fin 64, cx0 + c ≤ ax.val ∧ ax.val < cx0 + c + k ∧ spriteBit b (ax.val - cx0) = true ∧
        cv.disp.cell ax cy = true := by
  induction k generalizing c cv with
  | zero =>
    simp only [List.range'_zero, drawCols]
    constructor
    · exact .inl
    · rintro (h | ⟨ax, h1, h2, -⟩)
      · exact h
      · omega
  | succ k ih =>
    simp only [List.range'_succ, drawCols]
    split
    · rename_i hb
      rw [ih]
      have hcell : ∀ ax : Fin 64, cx0 + (c + 1) ≤ ax.val →
          (if spriteBit b c = true then cv.toggle ⟨cx0 + c, hb⟩ cy else cv).disp.cell ax cy = cv.disp.cell ax cy := by
        intro ax h
        split
        · rw [Canvas.toggle_cell, if_neg]
          rintro ⟨e, -⟩
          simp [e] at h
        · rfl
      have hhit : (if spriteBit b c = true then cv.toggle ⟨cx0 + c, hb⟩ cy else cv).hit = true ↔
          cv.hit = true ∨ (spriteBit b c = true ∧ cv.disp.cell ⟨cx0 + c, hb⟩ cy = true) := by
        split <;> rename_i h <;> simp [Canvas.toggle_hit, h]
      rw [hhit]
      constructor
      · rintro ((h | ⟨h1, h2⟩) | ⟨ax, h1, h2, h3, h4⟩)
        · exact .inl h
        · exact .inr ⟨⟨cx0 + c, hb⟩, by simp, by simp, by simpa using h1, h2⟩
        · exact .inr ⟨ax, by omega, by omega, h3, by rw [← hcell ax h1]; exact h4⟩
      · rintro (h | ⟨ax, h1, h2, h3, h4⟩)
        · exact .inl (.inl h)
        · by_cases hs : ax.val = cx0 + c
          · have e2 : ax = ⟨cx0 + c, hb⟩ := Fin.ext hs
            have e : ax.val - cx0 = c := by omega
            exact .inl (.inr ⟨by rw [← e]; exact h3, by rw [← e2]; exact h4⟩)
          · exact .inr ⟨ax, by omega, by omega, h3, by rw [hcell ax (by omega)]; exact h4⟩
    · rename_i hb
      constructor
      · exact .inl
      · rintro (h | ⟨ax, h1, -⟩)
        · exact h
        · omega

/-- The columns of a sprite row, as a range. -/
theorem spriteCols_eq : spriteCols = List.range' 0 8 := rfl

/-- What drawing rows c to c + k - 1 of a sprite does to a cell. -/
theorem drawRows_cell (m : Memory) (base cx0 cy0 k c : Nat) (cv : Canvas) (ax : Fin 64) (ay : Fin 32) :
    (drawRows m base cx0 cy0 (List.range' c k) cv).disp.cell ax ay =
      (cv.disp.cell ax ay ^^
        (decide (cy0 + c ≤ ay.val ∧ ay.val < cy0 + c + k ∧ base + (ay.val - cy0) ≤ 0xFFF ∧ cx0 ≤ ax.val ∧ ax.val < cx0 + 8) &&
          spriteBit (m.read (base + (ay.val - cy0))) (ax.val - cx0))) := by
  induction k generalizing c cv with
  | zero =>
    have h : ¬(cy0 + c ≤ ay.val ∧ ay.val < cy0 + c + 0 ∧ base + (ay.val - cy0) ≤ 0xFFF ∧ cx0 ≤ ax.val ∧ ax.val < cx0 + 8) := by
      omega
    simp only [List.range'_zero, drawRows, h, decide_false, Bool.false_and, Bool.xor_false]
  | succ k ih =>
    simp only [List.range'_succ, drawRows]
    split
    · rename_i hb
      rw [Memory.read?_eq]
      by_cases hm : base + c ≤ 0xFFF
      · simp only [hm, if_true]
        rw [ih, spriteCols_eq, drawCols_cell]
        by_cases hs : ay.val = cy0 + c
        · have e : ay.val - cy0 = c := by omega
          have e2 : ay = ⟨cy0 + c, hb⟩ := Fin.ext hs
          simp [← e2, hm, hs, Bool.decide_and]
        · have e2 : ay ≠ ⟨cy0 + c, hb⟩ := fun h => hs (congrArg Fin.val h)
          have h1 : cy0 + (c + 1) ≤ ay.val ↔ cy0 + c ≤ ay.val := by omega
          have h2 : ay.val < cy0 + (c + 1) + k ↔ ay.val < cy0 + c + (k + 1) := by omega
          simp [e2, h1, h2]
      · have h : ¬(cy0 + c ≤ ay.val ∧ ay.val < cy0 + c + (k + 1) ∧ base + (ay.val - cy0) ≤ 0xFFF ∧ cx0 ≤ ax.val ∧
            ax.val < cx0 + 8) := by omega
        simp only [hm, if_false, h, decide_false, Bool.false_and, Bool.xor_false]
    · rename_i hb
      have h : ¬(cy0 + c ≤ ay.val ∧ ay.val < cy0 + c + (k + 1) ∧ base + (ay.val - cy0) ≤ 0xFFF ∧ cx0 ≤ ax.val ∧
            ax.val < cx0 + 8) := by omega
      simp only [h, decide_false, Bool.false_and, Bool.xor_false]

/-- When drawing rows c to c + k - 1 of a sprite reports a collision. -/
theorem drawRows_hit (m : Memory) (base cx0 cy0 k c : Nat) (cv : Canvas) :
    (drawRows m base cx0 cy0 (List.range' c k) cv).hit = true ↔ cv.hit = true ∨
      ∃ (ax : Fin 64) (ay : Fin 32), (cy0 + c ≤ ay.val ∧ ay.val < cy0 + c + k ∧ base + (ay.val - cy0) ≤ 0xFFF ∧
        cx0 ≤ ax.val ∧ ax.val < cx0 + 8) ∧ spriteBit (m.read (base + (ay.val - cy0))) (ax.val - cx0) = true ∧
        cv.disp.cell ax ay = true := by
  induction k generalizing c cv with
  | zero =>
    refine ⟨.inl, ?_⟩
    rintro (h | ⟨ax, ay, h, -⟩)
    · exact h
    · omega
  | succ k ih =>
    simp only [List.range'_succ, drawRows]
    split
    · rename_i hb
      rw [Memory.read?_eq]
      by_cases hm : base + c ≤ 0xFFF
      · simp only [hm, if_true]
        rw [ih, spriteCols_eq, drawCols_hit]
        have hcell : ∀ (ax : Fin 64) (ay : Fin 32), cy0 + (c + 1) ≤ ay.val →
            (drawCols (m.read (base + c)) cx0 ⟨cy0 + c, hb⟩ (List.range' 0 8) cv).disp.cell ax ay =
              cv.disp.cell ax ay := by
          intro ax ay h
          have e : ay ≠ ⟨cy0 + c, hb⟩ := by
            intro e
            simp [e] at h
          simp [drawCols_cell, e]
        constructor
        · rintro ((h | ⟨ax, h1, h2, h3, h4⟩) | ⟨ax, ay, h1, h2, h3⟩)
          · exact .inl h
          · refine .inr ⟨ax, ⟨cy0 + c, hb⟩, by simp; omega, ?_, h4⟩
            simpa using h3
          · exact .inr ⟨ax, ay, by omega, h2, by rw [← hcell ax ay (by omega)]; exact h3⟩
        · rintro (h | ⟨ax, ay, h1, h2, h3⟩)
          · exact .inl (.inl h)
          · by_cases hs : ay.val = cy0 + c
            · have e2 : ay = ⟨cy0 + c, hb⟩ := Fin.ext hs
              have e : ay.val - cy0 = c := by omega
              exact .inl (.inr ⟨ax, by omega, by omega, by rw [← e]; exact h2, by rw [← e2]; exact h3⟩)
            · exact .inr ⟨ax, ay, by omega, h2, by rw [hcell ax ay (by omega)]; exact h3⟩
      · simp only [hm, if_false]
        refine ⟨.inl, ?_⟩
        rintro (h | ⟨ax, ay, h, -⟩)
        · exact h
        · omega
    · rename_i hb
      refine ⟨.inl, ?_⟩
      rintro (h | ⟨ax, ay, h, -⟩)
      · exact h
      · omega

end Sys2Proof.Machine
end

