-- ==== Sys2Proof/Laws/Frames.lean ====
section
/-! SUPPORT. The frames of the shared updates, in the words of Safety.lean. -/

namespace Sys2Proof.Machine

/-- A byte of a range. -/
theorem mem_bytesAt (a lo len : Nat) : Part.byte a ∈ bytesAt lo len ↔ lo ≤ a ∧ a < lo + len := by
  simp only [bytesAt, List.mem_map, List.mem_range, Part.byte.injEq]
  constructor
  · rintro ⟨k, h, rfl⟩
    omega
  · intro h
    exact ⟨a - lo, by omega, by omega⟩

/-- The frame of a register result. -/
theorem unchanged_setReg (s : State) (x : RegIdx) (b : Byte) : Unchanged [.pc, .reg x] s (s.setReg x b).advance := by
  intro p hp
  cases p <;> simp_all [Part.same, State.reg_setReg]

/-- The frame of a result and a flag. -/
theorem unchanged_writeBack (s : State) (x : RegIdx) (b : Byte) (c : Bool) :
    Unchanged [.pc, .reg x, .reg flagReg] s (s.writeBack x b c) := by
  intro p hp
  cases p <;> simp_all [Part.same, State.reg_writeBack_of_ne]

/-- The frame of a skip. -/
theorem unchanged_skipIf (s : State) (c : Bool) : Unchanged [.pc] s (s.skipIf c) := by
  intro p hp
  cases p <;> simp_all [Part.same]

/-- The frame of a store: the bytes it stores. -/
theorem unchanged_store (s : State) (bs : List Byte) :
    Unchanged (.pc :: bytesAt s.i.toNat bs.length) s
      { s with mem := s.mem.writeBytes s.i.toNat bs, pc := s.pc + 2 } := by
  intro p hp
  cases p <;> simp_all [Part.same]
  rename_i a
  rw [mem_bytesAt] at hp
  exact Memory.read_writeBytes_outside _ _ _ _ (by omega)

/-- A store that is allowed. -/
theorem storeAtI_allowed (bs : List Byte) (s : State) (h : StoreAllowed s bs.length) :
    storeAtI bs s = .next { s with mem := s.mem.writeBytes s.i.toNat bs, pc := s.pc + 2 } := by
  rcases storeAtI_cases bs s with ⟨h1, -⟩ | ⟨-, h1, h2, -⟩ | ⟨-, -, h3⟩
  · have := h.1
    simp only [memSize] at h1
    omega
  · rw [meetsGlyphs_iff] at h2
    rcases h.2 with h3 | h3
    · simp [h1] at h3
    · omega
  · exact h3

end Sys2Proof.Machine
end

