-- ==== Sys2Proof/Laws/PerInstr.lean ====
section
/-! SUPPORT. Statements about all instructions as syntax, one lemma per constructor (LAWS.json). -/

namespace Sys2Proof

/-- All bits, and no bits, of a part. -/
theorem and_ones4 (a : BitVec 4) : a &&& 0xF#4 = a := BitVec.and_allOnes

theorem and_ones8 (a : BitVec 8) : a &&& 0xFF#8 = a := BitVec.and_allOnes

theorem and_none {n : Nat} (a : BitVec n) : a &&& 0#n = 0#n := BitVec.and_zero

/-- A word of format A under the mask of its leading nibble. -/
theorem wordA_masked (f : BitVec 4) (nnn : Addr12) : wordA f nnn &&& 0xF000#16 = wordA f 0 := by
  have h : (f ++ nnn) &&& (0xF#4 ++ 0#12) = f ++ 0#12 := by rw [BitVec.and_append, and_ones4, and_none]
  exact h

/-- A word of format XB under the mask of its leading nibble. -/
theorem wordXB_masked_first (f : BitVec 4) (x : RegIdx) (nn : Byte) : wordXB f x nn &&& 0xF000#16 = wordXB f 0 0 := by
  have h : ((f ++ nibble x) ++ nn) &&& ((0xF#4 ++ 0#4) ++ 0#8) = (f ++ 0#4) ++ 0#8 := by
    rw [BitVec.and_append, BitVec.and_append, and_ones4, and_none, and_none]
  exact h

/-- A word of format XD under the mask of its leading nibble and its discriminant. -/
theorem wordXB_masked (f : BitVec 4) (x : RegIdx) (nn : Byte) : wordXB f x nn &&& 0xF0FF#16 = wordXB f 0 nn := by
  have h : ((f ++ nibble x) ++ nn) &&& ((0xF#4 ++ 0#4) ++ 0xFF#8) = (f ++ 0#4) ++ nn := by
    rw [BitVec.and_append, BitVec.and_append, and_ones4, and_none, and_ones8]
  exact h

/-- A word of format XYN under the mask of its leading nibble. -/
theorem wordXYN_masked_first (f : BitVec 4) (x y : RegIdx) (n : BitVec 4) :
    wordXYN f x y n &&& 0xF000#16 = wordXYN f 0 0 0 := by
  have h : (((f ++ nibble x) ++ nibble y) ++ n) &&& (((0xF#4 ++ 0#4) ++ 0#4) ++ 0#4) = ((f ++ 0#4) ++ 0#4) ++ 0#4 := by
    rw [BitVec.and_append, BitVec.and_append, BitVec.and_append, and_ones4, and_none, and_none, and_none]
  exact h

/-- A word of format XY under the mask of its leading nibble and its discriminant. -/
theorem wordXYN_masked (f : BitVec 4) (x y : RegIdx) (n : BitVec 4) : wordXYN f x y n &&& 0xF00F#16 = wordXYN f 0 0 n := by
  have h : (((f ++ nibble x) ++ nibble y) ++ n) &&& (((0xF#4 ++ 0#4) ++ 0#4) ++ 0xF#4) = ((f ++ 0#4) ++ 0#4) ++ n := by
    rw [BitVec.and_append, BitVec.and_append, BitVec.and_append, and_ones4, and_none, and_none, and_ones4]
  exact h

end Sys2Proof

namespace Sys2Proof.Laws.RowMatch

/-- The instruction's word lies in the instruction's row of the opcode map (30_encoding.md rule R79). -/
def Statement (i : Instr) : Prop := i.row.covers (encodeWord i) = true

theorem cls : Statement .cls := beq_iff_eq.mpr (wordXB_masked ..)
theorem ret : Statement .ret := beq_iff_eq.mpr (wordXB_masked ..)
theorem jp (nnn : Addr12) : Statement (.jp nnn) := beq_iff_eq.mpr (wordA_masked ..)
theorem call (nnn : Addr12) : Statement (.call nnn) := beq_iff_eq.mpr (wordA_masked ..)
theorem seImm (x : RegIdx) (nn : Byte) : Statement (.seImm x nn) := beq_iff_eq.mpr (wordXB_masked_first ..)
theorem sneImm (x : RegIdx) (nn : Byte) : Statement (.sneImm x nn) := beq_iff_eq.mpr (wordXB_masked_first ..)
theorem seReg (x y : RegIdx) : Statement (.seReg x y) := beq_iff_eq.mpr (wordXYN_masked_first ..)
theorem ldImm (x : RegIdx) (nn : Byte) : Statement (.ldImm x nn) := beq_iff_eq.mpr (wordXB_masked_first ..)
theorem addImm (x : RegIdx) (nn : Byte) : Statement (.addImm x nn) := beq_iff_eq.mpr (wordXB_masked_first ..)
theorem ldReg (x y : RegIdx) : Statement (.ldReg x y) := beq_iff_eq.mpr (wordXYN_masked ..)
theorem orReg (x y : RegIdx) : Statement (.orReg x y) := beq_iff_eq.mpr (wordXYN_masked ..)
theorem andReg (x y : RegIdx) : Statement (.andReg x y) := beq_iff_eq.mpr (wordXYN_masked ..)
theorem xorReg (x y : RegIdx) : Statement (.xorReg x y) := beq_iff_eq.mpr (wordXYN_masked ..)
theorem addReg (x y : RegIdx) : Statement (.addReg x y) := beq_iff_eq.mpr (wordXYN_masked ..)
theorem sub (x y : RegIdx) : Statement (.sub x y) := beq_iff_eq.mpr (wordXYN_masked ..)
theorem shr (x : RegIdx) : Statement (.shr x) := beq_iff_eq.mpr (wordXYN_masked ..)
theorem subn (x y : RegIdx) : Statement (.subn x y) := beq_iff_eq.mpr (wordXYN_masked ..)
theorem shl (x : RegIdx) : Statement (.shl x) := beq_iff_eq.mpr (wordXYN_masked ..)
theorem sneReg (x y : RegIdx) : Statement (.sneReg x y) := beq_iff_eq.mpr (wordXYN_masked_first ..)
theorem ldI (nnn : Addr12) : Statement (.ldI nnn) := beq_iff_eq.mpr (wordA_masked ..)
theorem jpV0 (nnn : Addr12) : Statement (.jpV0 nnn) := beq_iff_eq.mpr (wordA_masked ..)
theorem rnd (x : RegIdx) (nn : Byte) : Statement (.rnd x nn) := beq_iff_eq.mpr (wordXB_masked_first ..)
theorem drw (x y : RegIdx) (n : Fin 16) : Statement (.drw x y n) := beq_iff_eq.mpr (wordXYN_masked_first ..)
theorem skp (x : RegIdx) : Statement (.skp x) := beq_iff_eq.mpr (wordXB_masked ..)
theorem sknp (x : RegIdx) : Statement (.sknp x) := beq_iff_eq.mpr (wordXB_masked ..)
theorem ldVxDt (x : RegIdx) : Statement (.ldVxDt x) := beq_iff_eq.mpr (wordXB_masked ..)
theorem ldVxK (x : RegIdx) : Statement (.ldVxK x) := beq_iff_eq.mpr (wordXB_masked ..)
theorem ldDtVx (x : RegIdx) : Statement (.ldDtVx x) := beq_iff_eq.mpr (wordXB_masked ..)
theorem ldStVx (x : RegIdx) : Statement (.ldStVx x) := beq_iff_eq.mpr (wordXB_masked ..)
theorem addI (x : RegIdx) : Statement (.addI x) := beq_iff_eq.mpr (wordXB_masked ..)
theorem ldF (x : RegIdx) : Statement (.ldF x) := beq_iff_eq.mpr (wordXB_masked ..)
theorem ldB (x : RegIdx) : Statement (.ldB x) := beq_iff_eq.mpr (wordXB_masked ..)
theorem storeRegs (x : RegIdx) : Statement (.storeRegs x) := beq_iff_eq.mpr (wordXB_masked ..)
theorem loadRegs (x : RegIdx) : Statement (.loadRegs x) := beq_iff_eq.mpr (wordXB_masked ..)

end Sys2Proof.Laws.RowMatch
end

