-- ==== Sys2Proof/Laws/Step.lean ====
section
/-! SUPPORT. The step: the bound of the fetch, every case a step can take, what placing a word does, and runs of steps. -/

namespace Sys2Proof.Machine

/-- The bound of the fetch (40_execution_cycle.md rule R91). -/
theorem State.canFetch_iff (s : State) : s.canFetch = true ↔ s.pc.toNat ≤ 0xFFE := by
  rw [State.canFetch, decide_eq_true_iff, memSize]
  omega

/-- Everything a step can do: nothing when halted, the fetch fault, an instruction, or the unknown word. -/
theorem step_cases (s : State) :
    (s.fault ≠ none ∧ step s = .next s) ∨
    (s.fault = none ∧ 0xFFE < s.pc.toNat ∧ step s = .next { s with fault := some .fetchOutOfBounds }) ∨
    (s.fault = none ∧ s.pc.toNat ≤ 0xFFE ∧ ∃ i, decodeWord s.fetchWord = .ok i ∧ step s = exec i s) ∨
    (s.fault = none ∧ s.pc.toNat ≤ 0xFFE ∧ (∃ e, decodeWord s.fetchWord = .error e) ∧
      step s = .next (s.report (.unknownInstruction s.pc s.fetchWord)).advance) := by
  cases hf : s.fault with
  | some k => exact .inl ⟨by simp, by simp [step, hf, haltedStep]⟩
  | none =>
    cases hc : s.canFetch with
    | false =>
      have h : ¬ s.pc.toNat ≤ 0xFFE := fun h => by simp [(State.canFetch_iff s).mpr h] at hc
      exact .inr (.inl ⟨rfl, by omega, by simp [step, hf, hc, fetchFault, raiseFault]⟩)
    | true =>
      have h := (State.canFetch_iff s).mp hc
      cases hd : decodeWord s.fetchWord with
      | ok i => exact .inr (.inr (.inl ⟨rfl, h, i, rfl, by simp [step, hf, hc, hd]⟩))
      | error e => exact .inr (.inr (.inr ⟨rfl, h, ⟨e, rfl⟩, by simp [step, hf, hc, hd, execUnknown]⟩))

/-- A run goes on from a next state. -/
theorem run_succ_of_next (M : Host.Core) (k : Nat) (s t : M.State) (h : M.step s = .next t) :
    M.run (k + 1) s = M.run k t := by
  simp only [Host.Core.run, h]

/-- A run of this machine goes on from a next state. -/
theorem run_of_next (k : Nat) (s t : State) (h : step s = .next t) : core.run (k + 1) s = core.run k t :=
  run_succ_of_next core k s t h

/-- A run of no steps. -/
theorem run_zero (s : State) : core.run 0 s = .next s := rfl

/-- The bytes of a word written at an address are fetched as the word. -/
theorem fetch_written (m : Memory) (a : Nat) (w : Word) (h : a + 1 < memSize) :
    wordOfBytes ((m.writeBytes a (bytesOfWord w)).read a) ((m.writeBytes a (bytesOfWord w)).read (a + 1)) = w := by
  have hl : a + (bytesOfWord w).length ≤ memSize := by
    simp only [bytesOfWord, List.length_cons, List.length_nil]
    omega
  have h0 := Memory.read_writeBytes_inside (bytesOfWord w) m a 0 (by simp [bytesOfWord]) hl
  have h1 := Memory.read_writeBytes_inside (bytesOfWord w) m a 1 (by simp [bytesOfWord]) hl
  rw [Nat.add_zero] at h0
  rw [h0, h1]
  exact wordOfBytes_bytesOfWord w

/-- The address a word is placed at can be fetched from. -/
theorem State.placePc_lt (s : State) : s.placePc.toNat + 1 < memSize := by
  unfold State.placePc
  cases h : s.canFetch with
  | true => simpa [State.canFetch] using h
  | false => simp only [Bool.false_eq_true, if_false]; decide

/-- What placing a word makes of the fetch. -/
theorem State.placeWord_fetch (s : State) (w : Word) :
    (s.placeWord w).fault = none ∧ (s.placeWord w).canFetch = true ∧ (s.placeWord w).fetchWord = w :=
  ⟨rfl, decide_eq_true (State.placePc_lt s), fetch_written s.mem s.placePc.toNat w (State.placePc_lt s)⟩

end Sys2Proof.Machine
end

