-- ==== Sys2Proof/Tests/Slice0.lean ====
section
/-! SUPPORT. The model's own tests. Every expected value is from the spec: the encodings of 30_encoding.md rule R79 written
out bit by bit, and the vectors of 95_test_vectors.md (W and Part 2), not from a run of the model. -/

namespace Sys2Proof.Tests

open Sys2Proof.Machine

/-! ### Well-formedness: words in no row of the map are refused (30_encoding.md rule R80) -/

theorem test_wellFormed_refuses_family0 : wordKnown 0x0123 = false ∧ wordKnown 0x00E1 = false := by decide
theorem test_wellFormed_refuses_family8 : wordKnown 0x8008 = false ∧ wordKnown 0x812F = false := by decide
theorem test_wellFormed_refuses_familyE : wordKnown 0xE000 = false ∧ wordKnown 0xE1A2 = false := by decide
theorem test_wellFormed_refuses_familyF : wordKnown 0xF130 = false ∧ wordKnown 0xF166 = false := by decide
theorem test_wellFormed_takes_ignored_nibbles : wordKnown 0x03E0 = true ∧ wordKnown 0x512F = true := by decide
theorem test_row_refuses_neighbour : Instr.cls.row.covers 0x00EE = false ∧ Instr.ret.row.covers 0x00EE = true := by decide

/-! ### Decoding: one word per constructor, first the leading nibble's bits, then the fields' -/

theorem test_decode_control :
    decodeWord 0b0000000011100000 = .ok .cls ∧ decodeWord 0b0000000011101110 = .ok .ret ∧
    decodeWord 0b0001101010111100 = .ok (.jp 0xABC) ∧ decodeWord 0b0010010000000001 = .ok (.call 0x401) ∧
    decodeWord 0b0011001100010010 = .ok (.seImm 3 0x12) ∧ decodeWord 0b0100001100010011 = .ok (.sneImm 3 0x13) ∧
    decodeWord 0b0101000100100000 = .ok (.seReg 1 2) ∧ decodeWord 0b1001000100101111 = .ok (.sneReg 1 2) ∧
    decodeWord 0b1011001100000000 = .ok (.jpV0 0x300) := by decide

theorem test_decode_alu :
    decodeWord 0b0110101001000010 = .ok (.ldImm 0xA 0x42) ∧ decodeWord 0b0111000100000001 = .ok (.addImm 1 0x01) ∧
    decodeWord 0b1000000100100000 = .ok (.ldReg 1 2) ∧ decodeWord 0b1000000100100001 = .ok (.orReg 1 2) ∧
    decodeWord 0b1000000100100010 = .ok (.andReg 1 2) ∧ decodeWord 0b1000000100100011 = .ok (.xorReg 1 2) ∧
    decodeWord 0b1000000100100100 = .ok (.addReg 1 2) ∧ decodeWord 0b1000000100100101 = .ok (.sub 1 2) ∧
    decodeWord 0b1000000100100110 = .ok (.shr 1) ∧ decodeWord 0b1000000100100111 = .ok (.subn 1 2) ∧
    decodeWord 0b1000000100101110 = .ok (.shl 1) ∧ decodeWord 0b1100001100001111 = .ok (.rnd 3 0x0F) := by decide

theorem test_decode_address_display_timers_keys :
    decodeWord 0b1010001011110000 = .ok (.ldI 0x2F0) ∧ decodeWord 0b1101000000010101 = .ok (.drw 0 1 5) ∧
    decodeWord 0b1110001010011110 = .ok (.skp 2) ∧ decodeWord 0b1110001010100001 = .ok (.sknp 2) ∧
    decodeWord 0b1111001100000111 = .ok (.ldVxDt 3) ∧ decodeWord 0b1111010000001010 = .ok (.ldVxK 4) ∧
    decodeWord 0b1111001100010101 = .ok (.ldDtVx 3) ∧ decodeWord 0b1111001100011000 = .ok (.ldStVx 3) ∧
    decodeWord 0b1111010100011110 = .ok (.addI 5) ∧ decodeWord 0b1111000100101001 = .ok (.ldF 1) ∧
    decodeWord 0b1111000000110011 = .ok (.ldB 0) ∧ decodeWord 0b1111001001010101 = .ok (.storeRegs 2) ∧
    decodeWord 0b1111001001100101 = .ok (.loadRegs 2) := by decide

theorem test_decode_refuses_by_name :
    decodeWord 0x812C = .error (.unknown 0x812C) ∧ decodeBytes [0x12] = .error .truncated := by decide

theorem test_decode_table_word : decodeTableWord 16 0xD015 = some (.drw 0 1 5) ∧ decodeTableWord 16 0x8008 = none := by
  decide

theorem test_encode_bytes : encode (.call 0xABC) = [0x2A, 0xBC] ∧ encode (.drw 0 1 5) = [0xD0, 0x15] := by decide

/-! ### One step on a small state -/

/-- The reset state with registers written. -/
def withRegs (rs : List (RegIdx × Byte)) : State := rs.foldl (fun s r => s.setReg r.1 r.2) State.reset

/-- What a step on the word, placed at pc, leaves of a part of the state. -/
def after {α : Type} (s : State) (w : Nat) (part : State → α) : Option α :=
  match step (s.withFetchWord 16 w) with
  | .next t => some (part t)
  | .fault _ => none
  | .refused _ => none

/-- A state with I and registers. -/
def atI (i : Word) (rs : List (RegIdx × Byte)) : State := { withRegs rs with i := i }

theorem test_fetch_last_word :
    after { State.reset with pc := 0xFFE } 0x6005 (fun t => (t.reg 0, t.pc)) = some (0x05, 0x1000) := by decide
theorem test_fetch_odd_pc :
    after { State.reset with pc := 0x201 } 0x6107 (fun t => (t.reg 1, t.pc)) = some (0x07, 0x203) := by decide
theorem test_unknown_word : after State.reset 0x8008 (fun t => (t.pc, t.fault, t.reports)) =
    some (0x202, none, [.unknownInstruction 0x200 0x8008]) := by decide

theorem test_jp : after State.reset 0x1ABC (·.pc) = some 0xABC := by decide
theorem test_call_at_top : after { State.reset with pc := 0xFFE } 0x2300 (fun t => (t.pc, t.stack)) =
    some (0x300, [0x1000]) := by decide
theorem test_ret : after { State.reset with stack := [0x202, 0x20A] } 0x00EE (fun t => (t.pc, t.stack)) =
    some (0x202, [0x20A]) := by decide
theorem test_ret_underflow : after { State.reset with pc := 0x300 } 0x00EE (fun t => (t.stack, t.fault, t.reports)) =
    some ([], none, [.stackUnderflow 0x300]) := by decide
theorem test_se_imm : after (withRegs [(3, 0x12)]) 0x3312 (·.pc) = some 0x204 := by decide
theorem test_sne_imm : after (withRegs [(3, 0x12)]) 0x4312 (·.pc) = some 0x202 := by decide
theorem test_se_reg : after (withRegs [(1, 9), (2, 9)]) 0x5121 (·.pc) = some 0x204 := by decide
theorem test_sne_reg : after (withRegs [(1, 7), (2, 8)]) 0x9120 (·.pc) = some 0x204 := by decide
theorem test_jp_v0_unmasked : after (withRegs [(0, 0xFF)]) 0xBFFF (·.pc) = some 0x10FE := by decide
theorem test_jp_v0_only_v0 : after (withRegs [(0, 2), (5, 9)]) 0xB500 (·.pc) = some 0x502 := by decide

theorem test_ld_imm_vf : after State.reset 0x6FAA (·.reg 15) = some 0xAA := by decide
theorem test_add_imm_no_flag : after (withRegs [(1, 0xFF), (15, 0x55)]) 0x7101 (fun t => (t.reg 1, t.reg 15)) =
    some (0x00, 0x55) := by decide
theorem test_ld_reg : after (withRegs [(2, 0x33)]) 0x8120 (·.reg 1) = some 0x33 := by decide
theorem test_or_keeps_vf : after (withRegs [(1, 0x0F), (2, 0xF0), (15, 1)]) 0x8121 (fun t => (t.reg 1, t.reg 15)) =
    some (0xFF, 0x01) := by decide
theorem test_and : after (withRegs [(1, 0x3C), (2, 0x0F)]) 0x8122 (·.reg 1) = some 0x0C := by decide
theorem test_xor : after (withRegs [(1, 0xFF), (2, 0x0F)]) 0x8123 (·.reg 1) = some 0xF0 := by decide
theorem test_add_carry : after (withRegs [(1, 0x01), (15, 0xFF)]) 0x81F4 (fun t => (t.reg 1, t.reg 15)) =
    some (0x00, 1) := by decide
theorem test_add_flag_last : after (withRegs [(1, 0x20), (15, 0x10)]) 0x8F14 (·.reg 15) = some 0 := by decide
theorem test_sub_borrow : after (withRegs [(1, 0x03), (2, 0x05)]) 0x8125 (fun t => (t.reg 1, t.reg 15)) =
    some (0xFE, 0) := by decide
theorem test_sub_flag_last : after (withRegs [(1, 0x03), (15, 0x05)]) 0x8F15 (·.reg 15) = some 1 := by decide
theorem test_subn : after (withRegs [(1, 0x05), (2, 0x03)]) 0x8127 (fun t => (t.reg 1, t.reg 15)) = some (0xFE, 0) := by
  decide
theorem test_shr_ignores_y : after (withRegs [(1, 0x04), (2, 0xFF)]) 0x8126 (fun t => (t.reg 1, t.reg 15)) =
    some (0x02, 0) := by decide
theorem test_shr_flag_last : after (withRegs [(15, 0x03)]) 0x8F06 (·.reg 15) = some 1 := by decide
theorem test_shl : after (withRegs [(1, 0x81)]) 0x810E (fun t => (t.reg 1, t.reg 15)) = some (0x02, 1) := by decide
theorem test_shl_flag_last : after (withRegs [(15, 0x40)]) 0x8F0E (·.reg 15) = some 0 := by decide
theorem test_rnd : after (withRegs [(3, 0x55)]) 0xC30F (fun t => (t.reg 3, t.reg 4, t.draws, t.pc)) =
    some (Config.drawByte 0 &&& 0x0F, 0, 1, 0x202) := rfl

theorem test_ld_i : after State.reset 0xAFFF (·.i) = some 0xFFF := by decide
theorem test_add_i_unmasked : after (atI 0xFFF [(1, 1), (15, 7)]) 0xF11E (fun t => (t.i, t.reg 15, t.fault)) =
    some (0x1000, 0x07, none) := by decide
theorem test_add_i_overflow : after (atI 0xFFFF [(1, 1)]) 0xF11E (fun t => (t.i, t.pc, t.fault)) =
    some (0xFFFF, 0x200, some .addressOverflow) := by decide
theorem test_ld_f_low_nibble : after (withRegs [(1, 0x1A)]) 0xF129 (·.i) = some 0x082 := by decide
theorem test_bcd : after (atI 0xFFD [(0, 0xFF)]) 0xF033 (fun t => (List.range 3).map fun k => t.mem.read (0xFFD + k)) =
    some [2, 5, 5] := by decide
theorem test_bcd_glyph_fault : after (atI 0x04E [(0, 0xFF)]) 0xF033 (fun t => (t.fault, t.mem.read 0x04E, t.pc)) =
    some (some .glyphWrite, 0, 0x200) := by decide
theorem test_store_below_glyphs : after (atI 0x040 [(0, 1), (15, 0xAB)]) 0xFF55
    (fun t => (t.mem.read 0x040, t.mem.read 0x04F, t.mem.read 0x050, t.i)) = some (0x01, 0xAB, 0xF0, 0x040) := by decide
theorem test_store_past_memory : after (atI 0xFFF []) 0xF155 (fun t => (t.fault, t.pc)) =
    some (some .memoryOutOfBounds, 0x200) := by decide
theorem test_load_glyph : after (atI 0x050 [(5, 0x77)]) 0xF465 (fun t => allRegs.take 6 |>.map t.reg) =
    some [0xF0, 0x90, 0x90, 0x90, 0xF0, 0x77] := by decide
theorem test_load_past_memory : after (atI 0xFF1 [(0, 0x77)]) 0xFF65 (fun t => (t.reg 0, t.fault)) =
    some (0x77, some .memoryOutOfBounds) := by decide
theorem test_store_glyph_when_write : after { atI 0x09F [(0, 0x11)] with glyphWrite := .write } 0xF055
    (fun t => (t.mem.read 0x09F, t.fault, t.mem)) = some (0x11, none, [(0x09F, 0x11), (0x200, 0xF0), (0x201, 0x55)]) := by
  decide

/-- The cells of a column range of a row that are on. -/
def rowOn (t : State) (cy : Fin 32) : List Nat := ((List.finRange 64).filter fun cx => t.disp.cell cx cy).map (·.val)

theorem test_cls : after { State.reset with disp := Display.blank.setCell 9 9 true } 0x00E0
    (fun t => (t.disp.cell 9 9, t.dirty, t.pc)) = some (false, true, 0x202) := by decide
theorem test_drw_glyph_clipped : after (atI 0x050 [(1, 0x1E)]) 0xD015
    (fun t => (rowOn t 30, rowOn t 31, rowOn t 0, t.reg 15, t.dirty)) =
    some ([0, 1, 2, 3], [0, 3], [], 0, true) := by decide
theorem test_drw_collision : after
    { atI 0x300 [] with mem := [(0x300, 0xC0)], disp := Display.blank.setCell 0 0 true } 0xD011
    (fun t => (rowOn t 0, t.reg 15)) = some ([1], 1) := by decide
theorem test_drw_right_edge : after { atI 0x300 [(0, 0x7C)] with mem := [(0x300, 0xFF)] } 0xD011 (rowOn · 0) =
    some [60, 61, 62, 63] := by decide
theorem test_drw_memory_extent : after { atI 0xFFE [] with mem := [(0xFFE, 0xFF), (0xFFF, 0x80)] } 0xD015
    (fun t => (t.disp.cell 7 0, t.disp.cell 0 1, t.disp.cell 0 2, t.fault)) = some (true, true, false, none) := by
  decide
theorem test_drw_vf_coordinate : after (atI 0x050 [(15, 5)]) 0xDF11 (fun t => (rowOn t 0, t.reg 15)) =
    some ([5, 6, 7, 8], 0) := by decide

theorem test_ld_vx_dt : after { State.reset with dt := 0x3C } 0xF307 (fun t => (t.reg 3, t.dt)) = some (0x3C, 0x3C) := by
  decide
theorem test_ld_dt : after (withRegs [(3, 0x3C)]) 0xF315 (fun t => (t.dt, t.st)) = some (0x3C, 0) := by decide
theorem test_ld_st : after (withRegs [(3, 5)]) 0xF318 (fun t => (t.dt, t.st)) = some (0, 5) := by decide
theorem test_tick : (tickTimers { State.reset with dt := 1, st := 0 }).dt = 0 ∧
    (tickTimers (tickTimers { State.reset with dt := 1, st := 5 })).dt = 0 := by decide

/-- The input state with one key down. -/
def keyDown (k : KeyIdx) : Vector Bool 16 := (Vector.replicate 16 false).set k.val true

theorem test_skp : after { withRegs [(2, 0x13)] with keys := keyDown 3 } 0xE29E (·.pc) = some 0x204 := by decide
theorem test_sknp : after { withRegs [(2, 5)] with keys := keyDown 5 } 0xE2A1 (·.pc) = some 0x202 := by decide
theorem test_wait_arms : after { State.reset with keys := keyDown 3 } 0xF40A (fun t => (t.wait, t.pc, t.reg 4)) =
    some (.armed 3, 0x200, 0) := by decide
theorem test_wait_completes : after { State.reset with keys := keyDown 5, wait := .armed 2 } 0xF40A
    (fun t => (t.wait, t.pc, t.reg 4)) = some (.idle, 0x202, 2) := by decide

/-! ### Ports -/

theorem test_font_ends : State.reset.mem.read 0x050 = 0xF0 ∧ State.reset.mem.read 0x09B = 0xF0 ∧
    State.reset.mem.read 0x09F = 0x80 ∧ State.reset.mem.read 0x0A0 = 0 := by decide
theorem test_load_program : (loadProgram [0x12, 0x00] State.reset).2.fetchWord = 0x1200 := by decide
theorem test_program_too_large : (loadProgram (List.replicate 3585 1) State.reset).1 = .programTooLarge := by
  rw [loadProgram, if_pos (by rw [List.length_replicate]; decide)]
theorem test_program_longest_fits : (List.replicate 3584 (1 : Byte)).length ≤ memSize - programStart := by
  rw [List.length_replicate]
  decide

theorem test_codes : [Fault.fetchOutOfBounds, .memoryOutOfBounds, .addressOverflow, .glyphWrite].map faultCode =
    [3, 4, 5, 6] ∧ reportCode (.unknownInstruction 0 0) = 1 ∧ reportCode (.stackUnderflow 0) = 2 ∧
    loadResultCode .programTooLarge = some 7 ∧ loadResultCode .ok = none := by decide

/-! ### Witnesses: for each obligation with hypotheses a state and operands that meet them, at the boundary of each clause -/

/-- The reset state with I. -/
abbrev withI (i : Word) : State := { State.reset with i := i }

/-- The reset state with pc. -/
abbrev withPc (pc : Word) : State := { State.reset with pc := pc }

/-- The reset state with a word placed at 0x200. -/
abbrev withWord (w : Nat) : State := State.reset.withFetchWord 16 w

theorem witness_InitMachineHoldsTheFont : ∃ font : Vector Byte 80, font.toList = standardFont :=
  ⟨⟨standardFont.toArray, rfl⟩, rfl⟩
theorem witness_LoadProgramCopiesOrFails :
    (List.replicate 3584 (1 : Byte)).length ≤ 3584 ∧ 3584 < (List.replicate 3585 (1 : Byte)).length := by
  rw [List.length_replicate, List.length_replicate]
  decide
theorem witness_StepRunsDecodedInstruction : let s := (withPc 0xFFE).withFetchWord 16 0x6005
    s.fault = none ∧ s.pc.toNat ≤ 0xFFE ∧
      decodeBytes [s.mem.read s.pc.toNat, s.mem.read (s.pc.toNat + 1)] = .ok (.ldImm 0 5, []) := by decide
theorem witness_StepPassesUnknownWord : (withWord 0x8008).fault = none ∧ (withWord 0x8008).pc.toNat ≤ 0xFFE ∧
    wordKnown (withWord 0x8008).fetchWord = false := by decide
theorem witness_StepFaultsPastMemory : (withPc 0xFFF).fault = none ∧ 0xFFE < (withPc 0xFFF).pc.toNat := by decide
theorem witness_HaltedStepsChangeNothing : { State.reset with fault := some .glyphWrite }.fault ≠ none := by decide
theorem witness_PlacedWordRunsNext : decodeTableWord 16 0x00E0 = some .cls := by decide
theorem witness_EncodeOfDecode : decodeWord 0x812E = .ok (.shl 1) ∧ decodeWord 0x0FE0 = .ok .cls := by decide
theorem witness_DecodeAgreesWithOpcodeMap : wordKnown 0x0000 = false ∧
    (Instr.loadRegs 0).row ∈ opcodeMap ∧ (Instr.loadRegs 0).row.covers 0xFF65 = true := by decide
theorem witness_ReturnPopsOrUnderflows : { State.reset with stack := [0x1000] }.stack = 0x1000 :: [] ∧
    State.reset.stack = [] := by decide
theorem witness_AddSetsCarry_SubtractSetsNoBorrow_ShiftsSetShiftedOutBit : (14 : RegIdx) ≠ flagReg := by decide
theorem witness_AddressAddOrOverflows :
    (atI 0xFF00 [(1, 0xFF)]).i.toNat + ((atI 0xFF00 [(1, 0xFF)]).reg 1).toNat ≤ 0xFFFF ∧
    0xFFFF < (atI 0xFF01 [(1, 0xFF)]).i.toNat + ((atI 0xFF01 [(1, 0xFF)]).reg 1).toNat := by decide
theorem witness_BcdStoresDigits : StoreAllowed (withI 0xFFD) 3 ∧ StoreAllowed (withI 0x04D) 3 ∧
    StoreAllowed (withI 0x0A0) 3 ∧ StoreAllowed { withI 0x09F with glyphWrite := .write } 3 :=
  ⟨⟨by decide, .inr (.inr (by decide))⟩, ⟨by decide, .inr (.inl (by decide))⟩, ⟨by decide, .inr (.inr (by decide))⟩,
    ⟨by decide, .inl rfl⟩⟩
theorem witness_RangeStoreCopiesRegisters : StoreAllowed (withI 0xFF0) ((15 : RegIdx).val + 1) ∧
    StoreAllowed (withI 0xFFF) ((0 : RegIdx).val + 1) :=
  ⟨⟨by decide, .inr (.inr (by decide))⟩, ⟨by decide, .inr (.inr (by decide))⟩⟩
theorem witness_RangeLoadFillsRegisters : (withI 0xFF0).i.toNat + (15 : RegIdx).val ≤ 0xFFF := by decide
theorem witness_RangePastMemoryFaults : 0xFFF < (withI 0xFFE).i.toNat + 2 ∧
    0xFFF < (withI 0x1000).i.toNat + (0 : RegIdx).val := by decide
theorem witness_GlyphStoreFaults : (∀ i, (withI i).glyphWrite = .fault) ∧
    ((withI 0x09F).i.toNat ≤ 0x09F ∧ 0x050 ≤ (withI 0x09F).i.toNat + 2) ∧
    ((withI 0x04E).i.toNat ≤ 0x09F ∧ 0x050 ≤ (withI 0x04E).i.toNat + 2) ∧
    (withI 0x041).i.toNat ≤ 0x09F ∧ 0x050 ≤ (withI 0x041).i.toNat + (15 : RegIdx).val :=
  ⟨fun _ => rfl, by decide, by decide, by decide, by decide⟩
theorem witness_CanonicalMemoriesEqual : Memory.wf [(0x050, 0x00), (0x300, 0x01)] ∧
    Memory.write (Memory.write [] 0x300 1) 0x050 0 = [(0x050, 0x00), (0x300, 0x01)] := by decide
theorem witness_StoreIsSeenByFetch : StoreAllowed (withI 0x204) ((1 : RegIdx).val + 1) ∧ (0 : RegIdx) < 1 ∧
    (∃ t, exec (.storeRegs 1) (withI 0x204) = .next t) ∧ (withPc 0x204).pc.toNat = (withI 0x204).i.toNat + 0 :=
  ⟨⟨by decide, .inr (.inr (by decide))⟩, by decide, ⟨_, rfl⟩, by decide⟩

/-- Glyph 0 at the top left, where one cell is on. -/
abbrev oneCellOn : State := { withI 0x050 with disp := Display.blank.setCell 0 0 true }

theorem witness_DrawTogglesSpriteCells :
    (∃ cx cy, oneCellOn.disp.cell cx cy = true ∧ spriteAt oneCellOn 0 1 5 cx cy = true) ∧
    ∀ cx cy, (withI 0x050).disp.cell cx cy = true → spriteAt (withI 0x050) 0 1 5 cx cy = false :=
  ⟨⟨0, 0, by decide⟩, fun cx cy h => absurd (Display.cell_blank cx cy) (ne_of_eq_of_ne h (by decide))⟩
theorem witness_DrawTwiceRestores : ∃ t u, exec (.drw 0 1 1) (withI 0x050) = .next t ∧
    t.reg 0 = (withI 0x050).reg 0 ∧ t.reg 1 = (withI 0x050).reg 1 ∧ exec (.drw 0 1 1) t = .next u ∧
    spriteAt (withI 0x050) 0 1 1 0 0 = true ∧ (withI 0x050).disp.cell 0 0 = false :=
  ⟨_, _, rfl, rfl, rfl, rfl, by decide, Display.cell_blank 0 0⟩
theorem witness_DirtyFlagWritersAndReaders : (∃ t, exec .cls State.reset = .next t) ∧
    (∃ t, exec (.drw 0 1 5) State.reset = .next t) ∧
    ∃ t, hostCall .consumeFrame { State.reset with dirty := true } = .next t ∧ t.dirty = false :=
  ⟨⟨_, rfl⟩, ⟨_, rfl⟩, _, rfl, rfl⟩
theorem witness_TimerWritersAndReaders :
    (∃ t, exec (.ldDtVx 1) (withRegs [(1, 9)]) = .next t ∧ t.dt ≠ (withRegs [(1, 9)]).dt) ∧
    (∃ t, exec (.ldStVx 1) (withRegs [(1, 9)]) = .next t ∧ t.st ≠ (withRegs [(1, 9)]).st) ∧
    ∃ t, hostCall .tickTimers { State.reset with dt := 1, st := 1 } = .next t ∧ t.dt ≠ 1 ∧ t.st ≠ 1 :=
  ⟨⟨_, rfl, by decide⟩, ⟨_, rfl, by decide⟩, ⟨_, rfl, by decide, by decide⟩⟩
theorem witness_KeySkipsTestLowNibble : (15 : KeyIdx).val = ((withRegs [(2, 0xFF)]).reg 2).toNat % 16 := by decide

/-- Key 3 is down. -/
abbrev threeDown : State := { State.reset with keys := keyDown 3 }

theorem witness_KeyWaitTransitions : (State.reset.wait = .idle ∧ ∀ k, State.reset.key k = false) ∧
    (threeDown.wait = .idle ∧ ∃ k, threeDown.key k = true) ∧
    { threeDown with wait := .armed 3 }.key 3 = true ∧ { threeDown with wait := .armed 0 }.key 0 = false := by decide
theorem witness_KeyChoiceIsAnyKeyDown : threeDown.keysDown = 3 :: [] ∧
    { State.reset with keys := (keyDown 3).set 15 true }.keysDown = 3 :: [15] := by decide

/-- Waiting at an LD V4, K for the release of key 3. -/
abbrev armedAtWait : State := { withWord 0xF40A with wait := .armed 3 }

theorem witness_PortCallsKeepWaitLatch : WaitLatchOk armedAtWait ∧ ∃ t, hostCall .step armedAtWait = .next t :=
  ⟨fun _ _ => ⟨by decide, 4, by decide⟩, _, rfl⟩
theorem witness_InputWritersAndReaders : ∃ t, hostCall (.setInput (keyDown 3)) State.reset = .next t ∧
    t.keys ≠ State.reset.keys := ⟨_, rfl, by decide⟩
theorem witness_InstructionFrames : (∃ t, exec (.loadRegs 3) (withI 0x050) = .next t) ∧
    ¬ mayWrite (.loadRegs 3) (withI 0x050) (.reg 4) ∧ ¬ mayWrite (.ldB 0) (withI 0x300) (.byte 0x303) :=
  ⟨⟨_, rfl⟩, by
    rintro (h | ⟨r, h, e⟩)
    · exact absurd h (by decide)
    · exact absurd (Part.reg.inj e ▸ h) (by decide), by
    rintro (h | h)
    · exact absurd h (by decide)
    · exact absurd h (by decide)⟩
theorem witness_StackOnlyByCallAndRet : { State.reset with stack := [0x202] }.stack = 0x202 :: [] := rfl
theorem witness_InstructionsFaultExactlyWhen : (withI 0xFFF).fault = none ∧
    (∃ t, exec (.loadRegs 1) (withI 0xFFF) = .next t ∧ t.fault ≠ none) ∧
    ∃ t, exec (.loadRegs 0) (withI 0xFFF) = .next t ∧ t.fault = none :=
  ⟨rfl, ⟨_, rfl, by decide⟩, ⟨_, rfl, by decide⟩⟩
theorem witness_FaultsArePrecise : ∃ t, step (withPc 0xFFF) = .next t ∧ t.fault ≠ (withPc 0xFFF).fault :=
  ⟨_, rfl, by decide⟩
theorem witness_FaultIsSticky : ∃ t, { State.reset with fault := some .glyphWrite }.fault = some .glyphWrite ∧
    hostCall .step { State.reset with fault := some .glyphWrite } = .next t := ⟨_, rfl, rfl⟩
theorem witness_StepKeepsMemoryCanonical : (withWord 0xF055).mem.wf ∧ ∃ t, step (withWord 0xF055) = .next t :=
  ⟨by decide, _, rfl⟩
theorem witness_GlyphTableNeverMutated : (withWord 0xF055).glyphWrite = .fault ∧
    ∃ t, hostCall .step (withWord 0xF055) = .next t := ⟨rfl, _, rfl⟩
theorem witness_StepKeepsStackBounded : StackBounded { withWord 0x00EE with stack := [0x1000] } ∧
    { withWord 0x00EE with stack := [0x1000] }.pc.toNat ≤ 0xFFE ∧
    ∃ t, step { withWord 0x00EE with stack := [0x1000] } = .next t ∧ t.pc.toNat ≤ 0x10FE :=
  ⟨fun a h => by rw [List.mem_singleton.mp h]; decide, by decide, _, rfl, by decide⟩
theorem witness_HiddenStateNeverLeaks :
    SameButHidden State.reset { State.reset with st := 7, dirty := true, reports := [.stackUnderflow 0] } := rfl
theorem witness_ReachableStatesHaveTheInvariants (font : Vector Byte 80) :
    ∃ s, Reachable s ∧ s.pc = 0x200 := ⟨_, .boot font .fault [0x12, 0x00] _ rfl, rfl⟩
theorem witness_EndOfRunRepeats : AtEnd (withWord 0x1200) := ⟨rfl, by decide, 0x200, by decide, by decide⟩

end Sys2Proof.Tests
end

section
/-! SUPPORT. The frames of the instructions, the step and the port calls, and what no instruction reads (10_state.md). -/

namespace Sys2Proof.Machine

/-! ### What the branching instructions can do -/

/-- RET pops, or on an empty stack draws the next pc and reports the underflow (41_control_flow.md rule R100). -/
theorem execRet_cases (s : State) :
    (∃ top rest, s.stack = top :: rest ∧ execRet s = .next { s with pc := top, stack := rest }) ∨
    (s.stack = [] ∧
      execRet s = .next { (s.report (.stackUnderflow s.pc)).drawn with pc := Config.drawPc s.draws }) := by
  cases hs : s.stack with
  | nil => exact .inr ⟨rfl, by simp [execRet, hs]⟩
  | cons top rest => exact .inl ⟨top, rest, rfl, by simp [execRet, hs]⟩

/-- ADD I, Vx faults, or writes I and goes on (43_address_memory.md rule R131). -/
theorem execAddI_cases (x : RegIdx) (s : State) :
    (s.i.toNat + (s.reg x).toNat > 0xFFFF ∧ execAddI x s = .next { s with fault := some .addressOverflow }) ∨
    (s.i.toNat + (s.reg x).toNat ≤ 0xFFFF ∧
      execAddI x s = .next { s with i := BitVec.ofNat 16 (s.i.toNat + (s.reg x).toNat) }.advance) := by
  rcases Nat.lt_or_ge 0xFFFF (s.i.toNat + (s.reg x).toNat) with h | h
  · exact .inl ⟨h, by rw [execAddI, if_pos h, raiseFault_eq]⟩
  · exact .inr ⟨h, by rw [execAddI, if_neg (Nat.not_lt.mpr h)]⟩

/-- LD Vx, [I] faults, or loads V0 to Vx and goes on (43_address_memory.md rule R136). -/
theorem execLoadRegs_cases (x : RegIdx) (s : State) :
    (s.i.toNat + x.val + 1 > memSize ∧ execLoadRegs x s = .next { s with fault := some .memoryOutOfBounds }) ∨
    (s.i.toNat + x.val + 1 ≤ memSize ∧
      execLoadRegs x s = .next { s with v := loadFrom s.mem s.i.toNat (regsUpTo x) s.v }.advance) := by
  rcases Nat.lt_or_ge memSize (s.i.toNat + x.val + 1) with h | h
  · exact .inl ⟨h, by rw [execLoadRegs, if_pos h, raiseFault_eq]⟩
  · exact .inr ⟨h, by rw [execLoadRegs, if_neg (Nat.not_lt.mpr h)]⟩

/-- LD Vx, K in the three outcomes of its table: held, armed, completed (46_keyboard.md rule R163). -/
theorem execLdVxK_cases (x : RegIdx) (s : State) :
    execLdVxK x s = .next s ∨ (∃ k, execLdVxK x s = .next { s.drawn with wait := .armed k }) ∨
    ∃ b, execLdVxK x s = .next ({ s with wait := .idle }.setReg x b).advance := by
  unfold execLdVxK
  split
  · split
    · exact .inl rfl
    · exact .inr (.inl ⟨_, rfl⟩)
  · split
    · exact .inl rfl
    · exact .inr (.inr ⟨_, rfl⟩)

/-- No instruction answers a fault or a refusal: a fault is a next state (60_exceptions.md rule R172). -/
theorem exec_next (i : Instr) (s : State) : ∃ t, exec i s = .next t := by
  cases i with
  | ret => rcases execRet_cases s with ⟨top, rest, -, e⟩ | ⟨-, e⟩ <;> exact ⟨_, e⟩
  | addI x => rcases execAddI_cases x s with ⟨-, e⟩ | ⟨-, e⟩ <;> exact ⟨_, e⟩
  | loadRegs x => rcases execLoadRegs_cases x s with ⟨-, e⟩ | ⟨-, e⟩ <;> exact ⟨_, e⟩
  | ldVxK x => rcases execLdVxK_cases x s with e | ⟨k, e⟩ | ⟨b, e⟩ <;> exact ⟨_, e⟩
  | ldB | storeRegs => rcases storeAtI_cases _ s with ⟨-, e⟩ | ⟨-, -, -, e⟩ | ⟨-, -, e⟩ <;> exact ⟨_, e⟩
  | _ => exact ⟨_, rfl⟩

/-! ### Frames -/

/-- `Unchanged` part by part. -/
theorem unchanged_iff (l : List Part) (s t : State) : Unchanged l s t ↔
    (.pc ∉ l → t.pc = s.pc) ∧ (∀ r, .reg r ∉ l → t.reg r = s.reg r) ∧ (.i ∉ l → t.i = s.i) ∧
    (.stack ∉ l → t.stack = s.stack) ∧ (.dt ∉ l → t.dt = s.dt) ∧ (.st ∉ l → t.st = s.st) ∧
    (∀ a, .byte a ∉ l → t.mem.read a = s.mem.read a) ∧ (.disp ∉ l → t.disp = s.disp) ∧
    (.dirty ∉ l → t.dirty = s.dirty) ∧ (.keys ∉ l → t.keys = s.keys) ∧ (.wait ∉ l → t.wait = s.wait) ∧
    (.fault ∉ l → t.fault = s.fault) ∧ (.glyphWrite ∉ l → t.glyphWrite = s.glyphWrite) ∧
    (.draws ∉ l → t.draws = s.draws) ∧ (.reports ∉ l → t.reports = s.reports) := by
  constructor
  · intro h
    exact ⟨h .pc, fun r => h (.reg r), h .i, h .stack, h .dt, h .st, fun a => h (.byte a), h .disp, h .dirty, h .keys,
      h .wait, h .fault, h .glyphWrite, h .draws, h .reports⟩
  · rintro ⟨pc, reg, i, stack, dt, st, byte, disp, dirty, keys, wait, fault, glyphWrite, draws, reports⟩
    exact Part.rec pc reg i stack dt st byte disp dirty keys wait fault glyphWrite draws reports

/-- Fewer parts listed as written is the stronger claim. -/
theorem Unchanged.mono {k l : List Part} {s t : State} (h : Unchanged k s t) (sub : k ⊆ l) : Unchanged l s t :=
  fun p hp => h p (fun hk => hp (sub hk))

section
variable (s : State)

theorem unchanged_refl (l : List Part) : Unchanged l s s := by
  simp [unchanged_iff]

theorem unchanged_jump (a : Word) : Unchanged [.pc] s { s with pc := a } := by
  simp [unchanged_iff]

theorem unchanged_raiseFault (k : Fault) : Unchanged [.fault] s { s with fault := some k } := by
  simp [unchanged_iff]

theorem unchanged_setI (a : Word) : Unchanged [.pc, .i] s { s with i := a }.advance := by
  simp [unchanged_iff]

theorem unchanged_draw (d : Display) (c : Bool) :
    Unchanged [.pc, .reg flagReg, .disp, .dirty] s ({ s with disp := d, dirty := true }.setFlag c).advance := by
  simp +contextual [unchanged_iff, State.reg_setFlag_of_ne]

end

theorem unchanged_ret {s t : State} (h : exec .ret s = .next t) : Unchanged [.pc, .stack, .draws, .reports] s t := by
  rcases execRet_cases s with ⟨top, rest, -, e⟩ | ⟨-, e⟩ <;> obtain rfl := Host.Outcome.next.inj (e.symm.trans h)
  · simp [unchanged_iff]
  · simp [unchanged_iff]

theorem unchanged_ldVxK {x : RegIdx} {s t : State} (h : exec (.ldVxK x) s = .next t) :
    Unchanged [.pc, .reg x, .wait, .draws] s t := by
  rcases execLdVxK_cases x s with e | ⟨k, e⟩ | ⟨b, e⟩ <;> obtain rfl := Host.Outcome.next.inj (e.symm.trans h)
  · exact unchanged_refl s _
  · simp [unchanged_iff]
  · simp +contextual [unchanged_iff, State.reg_setReg]

theorem unchanged_addI {x : RegIdx} {s t : State} (h : exec (.addI x) s = .next t) :
    Unchanged [.pc, .i, .fault] s t := by
  rcases execAddI_cases x s with ⟨-, e⟩ | ⟨-, e⟩ <;> obtain rfl := Host.Outcome.next.inj (e.symm.trans h)
  · exact (unchanged_raiseFault s _).mono (by simp)
  · exact (unchanged_setI s _).mono (by simp)

/-- A store at I writes pc and its bytes, or the fault record. -/
theorem unchanged_storeAtI {bs : List Byte} {s t : State} (h : storeAtI bs s = .next t) :
    Unchanged (.pc :: .fault :: bytesAt s.i.toNat bs.length) s t := by
  rcases storeAtI_cases bs s with ⟨-, e⟩ | ⟨-, -, -, e⟩ | ⟨-, -, e⟩ <;>
    obtain rfl := Host.Outcome.next.inj (e.symm.trans h)
  · exact (unchanged_raiseFault s _).mono (by simp)
  · exact (unchanged_raiseFault s _).mono (by simp)
  · exact (unchanged_store s bs).mono (List.cons_subset_cons _ (List.subset_cons_self _ _))

theorem unchanged_loadRegs {x : RegIdx} {s t : State} (h : exec (.loadRegs x) s = .next t) :
    Unchanged (.pc :: .fault :: (regsUpTo x).map .reg) s t := by
  rcases execLoadRegs_cases x s with ⟨-, e⟩ | ⟨-, e⟩ <;> obtain rfl := Host.Outcome.next.inj (e.symm.trans h)
  · exact (unchanged_raiseFault s _).mono (by simp)
  · have loaded (r : RegIdx) (hr : r ∉ regsUpTo x) :
        State.reg { s with v := loadFrom s.mem s.i.toNat (regsUpTo x) s.v } r = s.reg r :=
      loadFrom_of_not_mem _ _ _ _ _ hr
    simpa [unchanged_iff] using loaded

/-- What an instruction may not write it leaves as it is. -/
theorem exec_frame {i : Instr} {s t : State} (h : exec i s = .next t) (p : Part) (hp : ¬ mayWrite i s p) :
    p.same s t := by
  cases i with
  | cls =>
    obtain rfl := Host.Outcome.next.inj h
    exact (unchanged_iff [.pc, .disp, .dirty] _ _).mpr (by simp) p hp
  | ret => exact unchanged_ret h p hp
  | jp | jpV0 =>
    obtain rfl := Host.Outcome.next.inj h
    exact unchanged_jump s _ p (List.mem_singleton.not.mpr hp)
  | call =>
    obtain rfl := Host.Outcome.next.inj h
    exact (unchanged_iff [.pc, .stack] _ _).mpr (by simp) p hp
  | seImm | sneImm | seReg | sneReg | skp | sknp =>
    obtain rfl := Host.Outcome.next.inj h
    exact unchanged_skipIf s _ p (List.mem_singleton.not.mpr hp)
  | ldImm | addImm | ldReg | orReg | andReg | xorReg | ldVxDt =>
    obtain rfl := Host.Outcome.next.inj h
    exact unchanged_setReg s _ _ p hp
  | addReg | sub | shr | subn | shl =>
    obtain rfl := Host.Outcome.next.inj h
    exact unchanged_writeBack s _ _ _ p hp
  | rnd x =>
    obtain rfl := Host.Outcome.next.inj h
    exact (unchanged_iff [.pc, .reg x, .draws] _ _).mpr (by simp +contextual [State.reg_setReg]) p hp
  | drw =>
    obtain rfl := Host.Outcome.next.inj h
    exact unchanged_draw s _ _ p hp
  | ldI | ldF =>
    obtain rfl := Host.Outcome.next.inj h
    exact unchanged_setI s _ p hp
  | addI => exact unchanged_addI h p hp
  | ldVxK => exact unchanged_ldVxK h p hp
  | ldDtVx =>
    obtain rfl := Host.Outcome.next.inj h
    exact (unchanged_iff [.pc, .dt] _ _).mpr (by simp) p hp
  | ldStVx =>
    obtain rfl := Host.Outcome.next.inj h
    exact (unchanged_iff [.pc, .st] _ _).mpr (by simp) p hp
  | ldB x => exact unchanged_storeAtI h p (by simpa [mayWrite, not_or, and_assoc] using hp)
  | storeRegs x =>
    have f := unchanged_storeAtI h
    rw [storedRegs_length] at f
    exact f p (by simpa [mayWrite, not_or, and_assoc] using hp)
  | loadRegs x =>
    refine unchanged_loadRegs h p ?_
    simpa [mayWrite, not_or, and_assoc, mem_regsUpTo, eq_comm] using hp

/-! ### Who writes the timers, the input state and the dirty flag -/

theorem mayWrite_dt_iff (i : Instr) (s : State) : mayWrite i s .dt ↔ ∃ x, i = .ldDtVx x := by
  cases i <;> simp [mayWrite, bytesAt]

theorem mayWrite_st_iff (i : Instr) (s : State) : mayWrite i s .st ↔ ∃ x, i = .ldStVx x := by
  cases i <;> simp [mayWrite, bytesAt]

theorem mayWrite_dirty_iff (i : Instr) (s : State) :
    mayWrite i s .dirty ↔ i = .cls ∨ ∃ x y n, i = .drw x y n := by
  cases i <;> simp [mayWrite, bytesAt]

theorem not_mayWrite_keys (i : Instr) (s : State) : ¬ mayWrite i s .keys := by
  cases i <;> simp [mayWrite, bytesAt]

/-- A step that changes a part which neither the fetch fault nor the unknown word writes has run an instruction that
may write it. -/
theorem step_writes {s t : State} (h : step s = .next t) (p : Part) (hp : p ∉ [.pc, .fault, .reports])
    (hne : ¬ p.same s t) : ∃ i, mayWrite i s p ∧ exec i s = .next t := by
  rcases step_cases s with ⟨-, e⟩ | ⟨-, -, e⟩ | ⟨-, -, i, -, e⟩ | ⟨-, -, -, e⟩
  · obtain rfl := Host.Outcome.next.inj (e.symm.trans h)
    exact absurd (unchanged_refl s _ p hp) hne
  · obtain rfl := Host.Outcome.next.inj (e.symm.trans h)
    exact absurd ((unchanged_raiseFault s _).mono (by simp) p hp) hne
  · exact ⟨i, by_contra fun hw => hne (exec_frame (e.symm.trans h) p hw), e.symm.trans h⟩
  · obtain rfl := Host.Outcome.next.inj (e.symm.trans h)
    exact absurd ((unchanged_iff [.pc, .fault, .reports] _ _).mpr (by simp) p hp) hne

/-! ### Port calls -/

theorem unchanged_setInput (bits : Vector Bool 16) (s : State) : Unchanged [.keys] s (setInput bits s) :=
  (unchanged_iff _ _ _).mpr (by simp [setInput])

theorem unchanged_tickTimers (s : State) : Unchanged [.dt, .st] s (tickTimers s) :=
  (unchanged_iff _ _ _).mpr (by simp [tickTimers])

theorem unchanged_consumeFrame (s : State) : Unchanged [.dirty] s (consumeFrame s) :=
  (unchanged_iff _ _ _).mpr (by simp [consumeFrame])

/-- A port call that changes such a part is a port that writes it, or a step that has run an instruction that may. -/
theorem hostCall_writes {c : HostCall} {s t : State} (h : hostCall c s = .next t) (p : Part)
    (hp : p ∉ [.pc, .fault, .reports]) (hne : ¬ p.same s t) :
    ((∃ bits, c = .setInput bits) ∧ p ∈ [.keys]) ∨ (c = .tickTimers ∧ p ∈ [.dt, .st]) ∨
    (c = .consumeFrame ∧ p ∈ [.dirty]) ∨ (c = .step ∧ ∃ i, mayWrite i s p ∧ exec i s = .next t) := by
  cases c with
  | setInput bits =>
    obtain rfl := Host.Outcome.next.inj h
    exact .inl ⟨⟨bits, rfl⟩, by_contra fun hn => hne (unchanged_setInput bits s p hn)⟩
  | tickTimers =>
    obtain rfl := Host.Outcome.next.inj h
    exact .inr (.inl ⟨rfl, by_contra fun hn => hne (unchanged_tickTimers s p hn)⟩)
  | consumeFrame =>
    obtain rfl := Host.Outcome.next.inj h
    exact .inr (.inr (.inl ⟨rfl, by_contra fun hn => hne (unchanged_consumeFrame s p hn)⟩))
  | step => exact .inr (.inr (.inr ⟨rfl, step_writes h p hp hne⟩))
  | display =>
    obtain rfl := Host.Outcome.next.inj h
    exact absurd (unchanged_refl s _ p hp) hne

/-! ### What instructions do not read -/

/-- New values for some of the five fields that few instructions read or write. -/
structure Overlay where
  stack : Option (List Word) := none
  dt : Option Byte := none
  st : Option Byte := none
  dirty : Option Bool := none
  keys : Option (Vector Bool 16) := none

/-- The state with the new values in place. -/
def Overlay.apply (o : Overlay) (s : State) : State :=
  { s with
    stack := o.stack.getD s.stack, dt := o.dt.getD s.dt, st := o.st.getD s.st,
    dirty := o.dirty.getD s.dirty, keys := o.keys.getD s.keys }

/-- No new value for a field that the instruction reads or writes. -/
def Overlay.ApartFrom (o : Overlay) : Instr → Prop
  | .ret | .call _ => o.stack = none
  | .ldVxDt _ | .ldDtVx _ => o.dt = none
  | .ldStVx _ => o.st = none
  | .cls | .drw _ _ _ => o.dirty = none
  | .skp _ | .sknp _ | .ldVxK _ => o.keys = none
  | _ => True

theorem storeAtI_overlay (o : Overlay) (bs : List Byte) (s : State) :
    storeAtI bs (o.apply s) = mapNext o.apply (storeAtI bs s) := by
  unfold storeAtI
  rw [apply_ite (mapNext o.apply), apply_ite (mapNext o.apply)]
  rfl

theorem execAddI_overlay (o : Overlay) (x : RegIdx) (s : State) :
    execAddI x (o.apply s) = mapNext o.apply (execAddI x s) := by
  unfold execAddI
  rw [apply_ite (mapNext o.apply)]
  rfl

theorem execLoadRegs_overlay (o : Overlay) (x : RegIdx) (s : State) :
    execLoadRegs x (o.apply s) = mapNext o.apply (execLoadRegs x s) := by
  unfold execLoadRegs
  rw [apply_ite (mapNext o.apply)]
  rfl

theorem execRet_overlay (o : Overlay) (s : State) (h : o.stack = none) :
    execRet (o.apply s) = mapNext o.apply (execRet s) := by
  have hs : (o.apply s).stack = s.stack := by simp [Overlay.apply, h]
  unfold execRet
  rw [hs]
  cases hc : s.stack with
  | nil => rfl
  | cons top rest => simp [mapNext, Overlay.apply, h]

theorem execLdVxK_overlay (o : Overlay) (x : RegIdx) (s : State) (h : o.keys = none) :
    execLdVxK x (o.apply s) = mapNext o.apply (execLdVxK x s) := by
  have hk (k : KeyIdx) : (o.apply s).key k = s.key k := by simp [Overlay.apply, h, State.key]
  have hd : (o.apply s).keysDown = s.keysDown := congrArg (allRegs.filter ·) (funext hk)
  have hw : (o.apply s).wait = s.wait := rfl
  unfold execLdVxK
  rw [hw, hd]
  cases s.wait with
  | idle => cases s.keysDown <;> rfl
  | armed k =>
    simp only [hk, apply_ite (mapNext o.apply)]
    rfl

/-- An instruction's effect commutes with a change of fields it neither reads nor writes. -/
theorem exec_overlay (o : Overlay) (i : Instr) (s : State) (h : o.ApartFrom i) :
    exec i (o.apply s) = mapNext o.apply (exec i s) := by
  cases i with
  | ret => exact execRet_overlay o s h
  | addI x => exact execAddI_overlay o x s
  | ldVxK x => exact execLdVxK_overlay o x s h
  | ldB | storeRegs => exact storeAtI_overlay o _ s
  | loadRegs x => exact execLoadRegs_overlay o x s
  | call | ldVxDt | ldDtVx | ldStVx | cls | drw | skp | sknp =>
    obtain ⟨stack, dt, st, dirty, keys⟩ := o
    obtain rfl := h
    rfl
  | _ => rfl

/-- An instruction's next state from a changed state is its next state from the old one, changed alike. -/
theorem exec_overlay_next (o : Overlay) (i : Instr) (s : State) (h : o.ApartFrom i) :
    ∃ t, exec i s = .next t ∧ exec i (o.apply s) = .next (o.apply t) := by
  obtain ⟨t, e⟩ := exec_next i s
  exact ⟨t, e, by rw [exec_overlay o i s h, e]; rfl⟩

end Sys2Proof.Machine
end

section
/-! SUPPORT. The statements about the state record (10_state.md): reset, frames, and who writes and reads the stack, the
dirty flag, the timers and the input state. -/

namespace Sys2Proof.Machine

/-! ### Reset -/

@[simp] theorem reset_reg (r : RegIdx) : State.reset.reg r = 0 := Vector.getElem_replicate r.isLt

@[simp] theorem reset_key (k : KeyIdx) : State.reset.key k = false := Vector.getElem_replicate k.isLt

/-- The glyph table of an unwritten memory is the default font. -/
theorem unlisted_glyph (d : Fin 80) : Memory.unlisted (0x050 + d.val) = standardFont[d.val]! := by
  revert d
  decide

/-- Settles O1, field by field. -/
theorem resetHoldsTheResetTable : Obligations.ResetHoldsTheResetTable :=
  ⟨reset_reg, rfl, rfl, rfl, rfl, rfl, fun a h => Memory.unlisted_outside a (h.imp_right And.left), unlisted_glyph,
    Display.cell_blank, rfl, reset_key, rfl, rfl, rfl⟩

/-- Settles O55: memory lists nothing, the latch is Idle and the stack is empty. -/
theorem resetHasTheInvariants : Obligations.ResetHasTheInvariants :=
  ⟨Memory.reset_wf, fun _ armed => Wait.noConfusion armed, List.forall_mem_nil _⟩

/-! ### Frames -/

/-- Settles O49, by the frame of each instruction. -/
theorem instructionFrames : Obligations.InstructionFrames := fun _ _ _ h p hp => exec_frame h p hp

/-! ### The stack -/

/-- Settles O50: only RET and CALL are not apart from a change of the stack. -/
theorem stackOnlyByCallAndRet : Obligations.StackOnlyByCallAndRet := by
  refine ⟨fun nnn s => ⟨_, rfl, rfl⟩, fun s a rest hs => ?_, fun i s stack => ?_⟩
  · exact ⟨{ s with pc := a, stack := rest }, by simp [exec, execRet, hs], rfl, rfl⟩
  · cases i with
    | ret => exact .inl rfl
    | call nnn => exact .inr (.inl ⟨nnn, rfl⟩)
    | _ => exact .inr (.inr (exec_overlay { stack := some stack } _ s (by trivial)))

/-! ### The dirty flag -/

/-- CLS and DRW, which may write the dirty flag, set it. -/
theorem exec_sets_dirty {i : Instr} {s t : State} (hw : mayWrite i s .dirty) (h : exec i s = .next t) :
    t.dirty = true := by
  rcases (mayWrite_dirty_iff i s).mp hw with rfl | ⟨x, y, n, rfl⟩ <;> obtain rfl := Host.Outcome.next.inj h
  · rfl
  · rfl

/-- Only `consume_frame()` clears the dirty flag. -/
theorem hostCall_clears_dirty {c : HostCall} {s t : State} (h : hostCall c s = .next t) (hs : s.dirty = true)
    (ht : t.dirty = false) : c = .consumeFrame := by
  have hne : t.dirty ≠ s.dirty := by simp [hs, ht]
  rcases hostCall_writes h .dirty (by simp) hne with ⟨-, hp⟩ | ⟨-, hp⟩ | ⟨rfl, -⟩ | ⟨-, i, hw, e⟩
  · simp at hp
  · simp at hp
  · rfl
  · exact absurd (exec_sets_dirty hw e) (by simp [ht])

/-- No instruction's effect on anything else depends on the dirty flag: CLS and DRW set it whatever it was, and the
others are apart from it. -/
theorem exec_ignores_dirty (i : Instr) (s : State) (b : Bool) :
    ∃ t d, exec i s = .next t ∧ exec i { s with dirty := b } = .next { t with dirty := d } := by
  cases i with
  | cls | drw => exact ⟨_, true, rfl, rfl⟩
  | _ => exact (exec_overlay_next { dirty := some b } _ s (by trivial)).imp fun t h => ⟨b, h⟩

/-- Settles O40: who may write the flag, and what the two that do make of it. -/
theorem dirtyFlagWritersAndReaders : Obligations.DirtyFlagWritersAndReaders :=
  ⟨fun s _ => exec_sets_dirty ((mayWrite_dirty_iff .cls s).mpr (.inl rfl)),
    fun x y n s _ => exec_sets_dirty ((mayWrite_dirty_iff (.drw x y n) s).mpr (.inr ⟨x, y, n, rfl⟩)),
    fun _ => rfl, fun _ => rfl, fun _ _ _ => hostCall_clears_dirty, exec_ignores_dirty⟩

/-! ### The timers -/

/-- A down-counter's decrement saturates at 0 (60_exceptions.md rule R178). -/
theorem tickDown_toNat (b : Byte) : (tickDown b).toNat = b.toNat - 1 := by
  unfold tickDown
  split
  · next h => simp [h]
  · next h => bv_omega

/-- Only LD DT, Vx writes DT. -/
theorem exec_writes_dt {i : Instr} {s t : State} (h : exec i s = .next t) (hne : t.dt ≠ s.dt) :
    ∃ x, i = .ldDtVx x :=
  (mayWrite_dt_iff i s).mp (by_contra fun hw => hne (exec_frame h .dt hw))

/-- Only LD ST, Vx writes ST. -/
theorem exec_writes_st {i : Instr} {s t : State} (h : exec i s = .next t) (hne : t.st ≠ s.st) :
    ∃ x, i = .ldStVx x :=
  (mayWrite_st_iff i s).mp (by_contra fun hw => hne (exec_frame h .st hw))

/-- DT is written by the tick and by a step that runs LD DT, Vx. -/
theorem hostCall_writes_dt {c : HostCall} {s t : State} (h : hostCall c s = .next t) (hne : t.dt ≠ s.dt) :
    c = .tickTimers ∨ (c = .step ∧ ∃ x, exec (.ldDtVx x) s = .next t) := by
  rcases hostCall_writes h .dt (by simp) hne with ⟨-, hp⟩ | ⟨rfl, -⟩ | ⟨-, hp⟩ | ⟨rfl, i, hw, e⟩
  · simp at hp
  · exact .inl rfl
  · simp at hp
  · obtain ⟨x, rfl⟩ := (mayWrite_dt_iff i s).mp hw
    exact .inr ⟨rfl, x, e⟩

/-- ST is written by the tick and by a step that runs LD ST, Vx. -/
theorem hostCall_writes_st {c : HostCall} {s t : State} (h : hostCall c s = .next t) (hne : t.st ≠ s.st) :
    c = .tickTimers ∨ (c = .step ∧ ∃ x, exec (.ldStVx x) s = .next t) := by
  rcases hostCall_writes h .st (by simp) hne with ⟨-, hp⟩ | ⟨rfl, -⟩ | ⟨-, hp⟩ | ⟨rfl, i, hw, e⟩
  · simp at hp
  · exact .inl rfl
  · simp at hp
  · obtain ⟨x, rfl⟩ := (mayWrite_st_iff i s).mp hw
    exact .inr ⟨rfl, x, e⟩

/-- Only LD Vx, DT reads DT. -/
theorem exec_ignores_dt (i : Instr) (s : State) (b : Byte) : (∃ x, i = .ldVxDt x) ∨
    ∃ t d, exec i s = .next t ∧ exec i { s with dt := b } = .next { t with dt := d } := by
  cases i with
  | ldVxDt x => exact .inl ⟨x, rfl⟩
  | ldDtVx x => exact .inr ⟨_, s.reg x, rfl, rfl⟩
  | _ => exact .inr ((exec_overlay_next { dt := some b } _ s (by trivial)).imp fun t h => ⟨b, h⟩)

/-- No instruction reads ST. -/
theorem exec_ignores_st (i : Instr) (s : State) (b : Byte) :
    ∃ t d, exec i s = .next t ∧ exec i { s with st := b } = .next { t with st := d } := by
  cases i with
  | ldStVx x => exact ⟨_, s.reg x, rfl, rfl⟩
  | _ => exact (exec_overlay_next { st := some b } _ s (by trivial)).imp fun t h => ⟨b, h⟩

/-- Settles O43: who may write a timer, by the frames, and who is apart from it. -/
theorem timerWritersAndReaders : Obligations.TimerWritersAndReaders :=
  ⟨fun x s => ⟨_, _, _, rfl, rfl, rfl, s.reg_setReg_same x s.dt, rfl, rfl⟩,
    fun s => ⟨_, rfl, tickDown_toNat s.dt, tickDown_toNat s.st⟩,
    fun _ _ _ => exec_writes_dt, fun _ _ _ => exec_writes_st,
    fun _ _ _ => hostCall_writes_dt, fun _ _ _ => hostCall_writes_st,
    exec_ignores_dt, exec_ignores_st⟩

/-! ### The input state -/

/-- Only `set_input` writes the input state. -/
theorem hostCall_writes_keys {c : HostCall} {s t : State} (h : hostCall c s = .next t) (hne : t.keys ≠ s.keys) :
    ∃ bits, c = .setInput bits := by
  rcases hostCall_writes h .keys (by simp) hne with ⟨hc, -⟩ | ⟨-, hp⟩ | ⟨-, hp⟩ | ⟨-, i, hw, -⟩
  · exact hc
  · simp at hp
  · simp at hp
  · exact absurd hw (not_mayWrite_keys i s)

/-- Every instruction but SKP, SKNP and LD Vx, K is apart from a change of the input state. -/
theorem exec_ignores_keys (i : Instr) (s : State) (bits : Vector Bool 16) :
    (∃ x, i = .skp x ∨ i = .sknp x ∨ i = .ldVxK x) ∨
      exec i { s with keys := bits } = mapNext (fun t => { t with keys := bits }) (exec i s) := by
  cases i with
  | skp x => exact .inl ⟨x, .inl rfl⟩
  | sknp x => exact .inl ⟨x, .inr (.inl rfl)⟩
  | ldVxK x => exact .inl ⟨x, .inr (.inr rfl)⟩
  | _ => exact .inr (exec_overlay { keys := some bits } _ s (by trivial))

/-- Every key is down. -/
def allDown : Vector Bool 16 := Vector.replicate 16 true

theorem allDown_key (k : KeyIdx) : State.key { State.reset with keys := allDown } k = true :=
  Vector.getElem_replicate k.isLt

/-- SKP, SKNP and LD Vx, K do read the input state: at reset, where every key is up, they do something else than when
every key is down. -/
theorem exec_reads_keys (x : RegIdx) (i : Instr) (hi : i ∈ [Instr.skp x, .sknp x, .ldVxK x]) :
    exec i { State.reset with keys := allDown } ≠
      mapNext (fun t => { t with keys := allDown }) (exec i State.reset) := by
  intro h
  simp only [List.mem_cons, List.not_mem_nil, or_false] at hi
  rcases hi with rfl | rfl | rfl
  · have hpc := congrArg State.pc (Host.Outcome.next.inj h)
    simp [allDown_key] at hpc
  · have hpc := congrArg State.pc (Host.Outcome.next.inj h)
    simp [allDown_key] at hpc
  · have hwait := congrArg State.wait (Host.Outcome.next.inj h)
    cases hwait

/-- Settles O48: the witnesses of its last clause are the state after reset and all keys down. -/
theorem inputWritersAndReaders : Obligations.InputWritersAndReaders :=
  ⟨fun bits s => ⟨_, rfl, fun _ => rfl, unchanged_setInput bits s⟩,
    fun _ _ _ => hostCall_writes_keys, exec_ignores_keys,
    fun x i hi => ⟨State.reset, allDown, exec_reads_keys x i hi⟩⟩

end Sys2Proof.Machine
end

section
/-! SUPPORT. Memory (20_memory.md): what a canonical memory lists, and what a step and a port call can do to memory. -/

namespace Sys2Proof.Machine

/-! ### A canonical memory lists exactly the bytes that differ from the reset contents -/

/-- A byte that does not read as an unlisted one is listed. -/
theorem Memory.mem_of_read_ne {m : Memory} {a : Nat} (h : m.read a ≠ Memory.unlisted a) : (a, m.read a) ∈ m := by
  induction m with
  | nil => exact absurd rfl h
  | cons e m ih =>
    rw [Memory.read] at h ⊢
    split
    · rename_i he
      exact he ▸ List.mem_cons_self
    · rename_i he
      rw [if_neg he] at h
      exact List.mem_cons_of_mem _ (ih h)

/-- Where addresses rise, a listed byte is what its address reads as. -/
theorem Memory.read_of_mem {m : Memory} {c : Host.Cell} (rising : m.Pairwise (fun c d => c.1 < d.1)) (h : c ∈ m) :
    m.read c.1 = c.2 := by
  induction m with
  | nil => exact absurd h List.not_mem_nil
  | cons e m ih =>
    obtain ⟨below, rest⟩ := List.pairwise_cons.mp rising
    rw [Memory.read]
    rcases List.mem_cons.mp h with rfl | hm
    · exact if_pos rfl
    · rw [if_neg (Nat.ne_of_lt (below c hm)), ih rest hm]

theorem Memory.mem_iff_of_wf {m : Memory} (wf : m.wf) (c : Host.Cell) :
    c ∈ m ↔ m.read c.1 = c.2 ∧ c.2 ≠ Memory.unlisted c.1 := by
  obtain ⟨rising, listed⟩ := wf
  constructor
  · intro h
    exact ⟨Memory.read_of_mem rising h, (listed c h).2⟩
  · rintro ⟨hread, hne⟩
    rw [← hread] at hne
    have := Memory.mem_of_read_ne hne
    rwa [hread] at this

/-! ### Only a store at I changes memory -/

/-- A result that is known to keep memory keeps it. -/
theorem mem_of_next {r : Result} {s t u : State} (e : r = .next u) (h : r = .next t) (kept : u.mem = s.mem) :
    t.mem = s.mem := by
  obtain rfl := Host.Outcome.next.inj (e.symm.trans h)
  exact kept

/-- An instruction leaves memory alone, or it is one that stores at I (LD B or LD [I]). -/
theorem exec_mem {i : Instr} {s t : State} (h : exec i s = .next t) :
    t.mem = s.mem ∨ ∃ bs, storeAtI bs s = .next t := by
  cases i with
  | ldB | storeRegs => exact .inr ⟨_, h⟩
  | ret =>
    rcases execRet_cases s with ⟨top, rest, -, e⟩ | ⟨-, e⟩ <;> exact .inl (mem_of_next e h rfl)
  | addI x =>
    rcases execAddI_cases x s with ⟨-, e⟩ | ⟨-, e⟩ <;> exact .inl (mem_of_next e h rfl)
  | loadRegs x =>
    rcases execLoadRegs_cases x s with ⟨-, e⟩ | ⟨-, e⟩ <;> exact .inl (mem_of_next e h rfl)
  | ldVxK x =>
    rcases execLdVxK_cases x s with e | ⟨k, e⟩ | ⟨b, e⟩ <;> exact .inl (mem_of_next e h rfl)
  | _ => exact .inl (mem_of_next rfl h rfl)

/-- A step leaves memory alone, or it stores at I. -/
theorem step_mem {s t : State} (h : step s = .next t) : t.mem = s.mem ∨ ∃ bs, storeAtI bs s = .next t := by
  rcases step_cases s with ⟨-, e⟩ | ⟨-, -, e⟩ | ⟨-, -, i, -, e⟩ | ⟨-, -, -, e⟩
  · exact .inl (mem_of_next e h rfl)
  · exact .inl (mem_of_next e h rfl)
  · exact exec_mem (e.symm.trans h)
  · exact .inl (mem_of_next e h rfl)

/-- A port call leaves memory alone, or it is a step that stores at I. -/
theorem hostCall_mem {c : HostCall} {s t : State} (h : hostCall c s = .next t) :
    t.mem = s.mem ∨ ∃ bs, storeAtI bs s = .next t := by
  cases c with
  | step => exact step_mem h
  | setInput | tickTimers | display | consumeFrame => exact .inl (mem_of_next rfl h rfl)

/-! ### What a store at I keeps -/

/-- A store at I keeps the canonical form. -/
theorem storeAtI_wf {bs : List Byte} {s t : State} (wf : s.mem.wf) (h : storeAtI bs s = .next t) : t.mem.wf := by
  rcases storeAtI_cases bs s with ⟨-, e⟩ | ⟨-, -, -, e⟩ | ⟨-, -, e⟩ <;>
    obtain rfl := Host.Outcome.next.inj (e.symm.trans h)
  · exact wf
  · exact wf
  · exact Memory.writeBytes_wf bs s.mem s.i.toNat wf

/-- Under GLYPH_WRITE = fault a store at I that is carried out misses the glyph table (20_memory.md rule R67). -/
theorem storeAtI_read_glyph {bs : List Byte} {s t : State} (gw : s.glyphWrite = .fault) (h : storeAtI bs s = .next t)
    {a : Nat} (lo : 0x050 ≤ a) (hi : a ≤ 0x09F) : t.mem.read a = s.mem.read a := by
  rcases storeAtI_cases bs s with ⟨-, e⟩ | ⟨-, -, -, e⟩ | ⟨-, misses, e⟩ <;>
    obtain rfl := Host.Outcome.next.inj (e.symm.trans h)
  · rfl
  · rfl
  · rw [meetsGlyphs_iff, not_and] at misses
    have apart := misses gw
    exact Memory.read_writeBytes_outside bs s.mem s.i.toNat a (by omega)

theorem not_mayWrite_glyphWrite (i : Instr) (s : State) : ¬ mayWrite i s .glyphWrite := by
  cases i <;> simp [mayWrite, bytesAt]

/-- No port call writes the setting GLYPH_WRITE. -/
theorem hostCall_glyphWrite {c : HostCall} {s t : State} (h : hostCall c s = .next t) :
    t.glyphWrite = s.glyphWrite := by
  by_contra hne
  rcases hostCall_writes h .glyphWrite (by simp) hne with ⟨-, hp⟩ | ⟨-, hp⟩ | ⟨-, hp⟩ | ⟨-, i, hw, -⟩
  · simp at hp
  · simp at hp
  · simp at hp
  · exact not_mayWrite_glyphWrite i s hw

end Sys2Proof.Machine
end

section
/-! SUPPORT. The statements about memory (20_memory.md). -/

namespace Sys2Proof.Machine

/-- Settles O54: a step changes memory only by a store at I, which keeps the canonical form. -/
theorem stepKeepsMemoryCanonical : Obligations.StepKeepsMemoryCanonical := by
  intro s t wf h
  rcases step_mem h with e | ⟨bs, store⟩
  · exact e ▸ wf
  · exact storeAtI_wf wf store

/-- Settles O56: a port call changes memory only by a store at I, which faults or misses the glyph table. -/
theorem glyphTableNeverMutated : Obligations.GlyphTableNeverMutated := by
  intro c s t gw h
  refine ⟨(hostCall_glyphWrite h).trans gw, fun a lo hi => ?_⟩
  rcases hostCall_mem h with e | ⟨bs, store⟩
  · rw [e]
  · exact storeAtI_read_glyph gw store lo hi

/-- Settles O35: a canonical memory is a strictly rising list, and what it reads as decides its members. -/
theorem canonicalMemoriesEqual : Obligations.CanonicalMemoriesEqual := by
  intro m n hm hn alike
  have asymm : Std.Asymm (fun c d : Host.Cell => c.1 < d.1) := ⟨fun _ _ => Nat.lt_asymm⟩
  refine List.Pairwise.eq_of_mem_iff hm.1 hn.1 fun c => ?_
  rw [Memory.mem_iff_of_wf hm, Memory.mem_iff_of_wf hn, alike]

/-- Settles O4: the fetched word is the two bytes joined big-endian. -/
theorem fetchIsBigEndian : Obligations.FetchIsBigEndian := fun _ => wordOfBytes_toNat _ _

end Sys2Proof.Machine
end

section
/-! SUPPORT. The decoder, the encoder and the opcode map (30_encoding.md): decoding an encoded instruction, which fields
of a word its row fixes, and what the decoder makes of a word. -/

namespace Sys2Proof

/-! ### The decoder on a word of each family that has a discriminant (rule R75) -/

section
variable {w : Word}

theorem decodeWord_of_first0 (h : Word.first w = 0x0#4) : decodeWord w = decodeFamily0 w := by rw [decodeWord, h]; rfl
theorem decodeWord_of_first8 (h : Word.first w = 0x8#4) : decodeWord w = decodeFamily8 w := by rw [decodeWord, h]; rfl
theorem decodeWord_of_firstE (h : Word.first w = 0xE#4) : decodeWord w = decodeFamilyE w := by rw [decodeWord, h]; rfl
theorem decodeWord_of_firstF (h : Word.first w = 0xF#4) : decodeWord w = decodeFamilyF w := by rw [decodeWord, h]; rfl

end

/-! ### Decoding an encoded instruction -/

/-- The decoder reads the fields that the encoder wrote, whatever the format. -/
theorem decodeWord_encodeWord (i : Instr) : decodeWord (encodeWord i) = .ok i := by
  cases i with
  | cls | ret => rw [encodeWord, decodeWord_of_first0 (first_wordXB ..), decodeFamily0, nn_wordXB]; rfl
  | jp | call | ldI | jpV0 => rw [encodeWord, decodeWord, first_wordA, nnn_wordA]; rfl
  | seImm | sneImm | ldImm | addImm | rnd => rw [encodeWord, decodeWord, first_wordXB, x_wordXB, nn_wordXB]; rfl
  | seReg | sneReg => rw [encodeWord, decodeWord, first_wordXYN, x_wordXYN, y_wordXYN]; rfl
  | drw => rw [encodeWord, decodeWord, first_wordXYN, x_wordXYN, y_wordXYN, n_wordXYN]; rfl
  | ldReg | orReg | andReg | xorReg | addReg | sub | subn =>
    rw [encodeWord, decodeWord_of_first8 (first_wordXYN ..), decodeFamily8, low4_wordXYN, x_wordXYN, y_wordXYN]; rfl
  | shr | shl => rw [encodeWord, decodeWord_of_first8 (first_wordXYN ..), decodeFamily8, low4_wordXYN, x_wordXYN]; rfl
  | skp | sknp => rw [encodeWord, decodeWord_of_firstE (first_wordXB ..), decodeFamilyE, nn_wordXB, x_wordXB]; rfl
  | ldVxDt | ldVxK | ldDtVx | ldStVx | addI | ldF | ldB | storeRegs | loadRegs =>
    rw [encodeWord, decodeWord_of_firstF (first_wordXB ..), decodeFamilyF, nn_wordXB, x_wordXB]; rfl

/-- The bytes of a word that decodes, at the front of a byte sequence. -/
theorem decodeBytes_bytesOfWord {w : Word} {i : Instr} (h : decodeWord w = .ok i) (rest : List Byte) :
    decodeBytes (bytesOfWord w ++ rest) = .ok (i, rest) := by
  simp [bytesOfWord, decodeBytes, h]

/-- Every instruction's row is a row of the map (rule R79). -/
theorem row_mem_opcodeMap (i : Instr) : i.row ∈ opcodeMap := by
  cases i <;> exact List.elem_iff.mp rfl

/-! ### A word without its ignored bits, field by field (rule R84) -/

/-- A word of format XYN without its last nibble. -/
theorem wordXYN_without_n (f : BitVec 4) (x y : RegIdx) (n : BitVec 4) :
    wordXYN f x y n &&& ~~~0x000F#16 = wordXYN f x y 0 := by
  have h : (((f ++ nibble x) ++ nibble y) ++ n) &&& (((0xF#4 ++ 0xF#4) ++ 0xF#4) ++ 0x0#4) =
      ((f ++ nibble x) ++ nibble y) ++ 0#4 := by
    rw [BitVec.and_append, BitVec.and_append, BitVec.and_append, and_ones4, and_ones4, and_ones4, and_none]
  exact h

/-- A word of format XYN without its y nibble. -/
theorem wordXYN_without_y (f : BitVec 4) (x y : RegIdx) (n : BitVec 4) :
    wordXYN f x y n &&& ~~~0x00F0#16 = wordXYN f x 0 n := by
  have h : (((f ++ nibble x) ++ nibble y) ++ n) &&& (((0xF#4 ++ 0xF#4) ++ 0x0#4) ++ 0xF#4) =
      ((f ++ nibble x) ++ 0#4) ++ n := by
    rw [BitVec.and_append, BitVec.and_append, BitVec.and_append, and_ones4, and_ones4, and_ones4, and_none]
  exact h

section
variable {w : Word} {f : BitVec 4}

theorem wordA_of_first (hf : Word.first w = f) : wordA f (Word.nnn w) = w &&& ~~~0#16 := by
  rw [← hf, wordA_of_fields, BitVec.not_zero, BitVec.and_allOnes]

theorem wordXB_of_first_nn {b : Byte} (hf : Word.first w = f) (hb : Word.nn w = b) :
    wordXB f (Word.x w) b = w &&& ~~~0#16 := by
  rw [← hf, ← hb, wordXB_of_fields, BitVec.not_zero, BitVec.and_allOnes]

theorem wordXB_zero_of_first_nn {b : Byte} (hf : Word.first w = f) (hb : Word.nn w = b) :
    wordXB f 0 b = w &&& ~~~0x0F00#16 := by
  rw [← hf, ← hb, ← wordXB_masked _ (Word.x w), wordXB_of_fields]
  rfl

theorem wordXYN_of_first_low4 {n : BitVec 4} (hf : Word.first w = f) (hn : Word.low4 w = n) :
    wordXYN f (Word.x w) (Word.y w) n = w &&& ~~~0#16 := by
  rw [← hf, ← hn, wordXYN_of_fields, BitVec.not_zero, BitVec.and_allOnes]

theorem wordXYN_x_of_first_low4 {n : BitVec 4} (hf : Word.first w = f) (hn : Word.low4 w = n) :
    wordXYN f (Word.x w) 0 n = w &&& ~~~0x00F0#16 := by
  rw [← hf, ← hn, ← wordXYN_without_y _ _ (Word.y w), wordXYN_of_fields]

theorem wordXYN_xy_of_first (hf : Word.first w = f) :
    wordXYN f (Word.x w) (Word.y w) 0 = w &&& ~~~0x000F#16 := by
  rw [← hf, ← wordXYN_without_n _ _ _ (Word.low4 w), wordXYN_of_fields]

end

/-! ### The row of the opcode map that a word is in (rule R79) -/

theorem first_and (a b : Word) : Word.first (a &&& b) = Word.first a &&& Word.first b := BitVec.extractLsb'_and
theorem nn_and (a b : Word) : Word.nn (a &&& b) = Word.nn a &&& Word.nn b := BitVec.extractLsb'_and
theorem low4_and (a b : Word) : Word.low4 (a &&& b) = Word.low4 a &&& Word.low4 b := BitVec.extractLsb'_and

section
variable {r : OpcodeRow} {w : Word}

theorem OpcodeRow.covers_iff : r.covers w = true ↔ w &&& r.mask = r.pat := beq_iff_eq

/-- A word in a row that fixes the leading nibble has the row's leading nibble. -/
theorem OpcodeRow.first_of_covers (h : r.covers w = true) (hm : Word.first r.mask = 0xF#4) :
    Word.first w = Word.first r.pat := by
  rw [← covers_iff.mp h, first_and, hm, and_ones4]

/-- A word in a row whose discriminant is `nn` has the row's. -/
theorem OpcodeRow.nn_of_covers (h : r.covers w = true) (hm : Word.nn r.mask = 0xFF#8) :
    Word.nn w = Word.nn r.pat := by
  rw [← covers_iff.mp h, nn_and, hm, and_ones8]

/-- A word in a row whose discriminant is `n` has the row's. -/
theorem OpcodeRow.low4_of_covers (h : r.covers w = true) (hm : Word.low4 r.mask = 0xF#4) :
    Word.low4 w = Word.low4 r.pat := by
  rw [← covers_iff.mp h, low4_and, hm, and_ones4]

/-- A word in the row of an instruction decodes to an instruction of that row: the decoder dispatches on the fields
that the row fixes. -/
theorem decodeWord_of_covers {i : Instr} (h : i.row.covers w = true) :
    ∃ j, decodeWord w = .ok j ∧ j.row = i.row := by
  cases i with
  | cls | ret =>
    rw [Instr.row] at h
    rw [decodeWord_of_first0 (OpcodeRow.first_of_covers h rfl), decodeFamily0, OpcodeRow.nn_of_covers h rfl]
    exact ⟨_, rfl, rfl⟩
  | ldReg | orReg | andReg | xorReg | addReg | sub | shr | subn | shl =>
    rw [Instr.row] at h
    rw [decodeWord_of_first8 (OpcodeRow.first_of_covers h rfl), decodeFamily8, OpcodeRow.low4_of_covers h rfl]
    exact ⟨_, rfl, rfl⟩
  | skp | sknp =>
    rw [Instr.row] at h
    rw [decodeWord_of_firstE (OpcodeRow.first_of_covers h rfl), decodeFamilyE, OpcodeRow.nn_of_covers h rfl]
    exact ⟨_, rfl, rfl⟩
  | ldVxDt | ldVxK | ldDtVx | ldStVx | addI | ldF | ldB | storeRegs | loadRegs =>
    rw [Instr.row] at h
    rw [decodeWord_of_firstF (OpcodeRow.first_of_covers h rfl), decodeFamilyF, OpcodeRow.nn_of_covers h rfl]
    exact ⟨_, rfl, rfl⟩
  | _ =>
    rw [Instr.row] at h
    rw [decodeWord, OpcodeRow.first_of_covers h rfl]
    exact ⟨_, rfl, rfl⟩

end

/-- Every row of the map is an instruction's: the one its pattern decodes to. -/
theorem exists_row_of_mem_opcodeMap {r : OpcodeRow} (hr : r ∈ opcodeMap) : ∃ i : Instr, i.row = r := by
  have h : ∀ r ∈ opcodeMap, ((decodeWord r.pat).toOption.map Instr.row) = some r := by decide
  obtain ⟨i, -, hi⟩ := Option.map_eq_some_iff.mp (h r hr)
  exact ⟨i, hi⟩

theorem wordKnown_of_covers {i : Instr} {w : Word} (h : i.row.covers w = true) : wordKnown w = true :=
  List.any_eq_true.mpr ⟨i.row, row_mem_opcodeMap i, h⟩

end Sys2Proof

namespace Sys2Proof.Laws.RowMatch

/-- Every instruction's word lies in its row. -/
theorem forall_instr (i : Instr) : Statement i :=
  Instr.rec (motive := Statement) cls ret jp call seImm sneImm seReg ldImm addImm ldReg orReg andReg xorReg addReg sub
    shr subn shl sneReg ldI jpV0 rnd drw skp sknp ldVxDt ldVxK ldDtVx ldStVx addI ldF ldB storeRegs loadRegs i

end Sys2Proof.Laws.RowMatch

namespace Sys2Proof.Machine

/-! ### What the decoder makes of a word -/

/-- An answer of the decoder is about the word: an instruction whose encoding is the word without the bits that the
instruction's row ignores (rule R84), or the refusal of the word by name (rule R80). -/
def ReadsWord (w : Word) : Except Reject Instr → Prop
  | .ok i => encodeWord i = w &&& ~~~(ignoredBits i)
  | .error e => e = .unknown w

section
variable {w : Word}

theorem readsWord_decodeFamily0 (hf : Word.first w = 0x0#4) : ReadsWord w (decodeFamily0 w) := by
  unfold decodeFamily0
  split
  · exact wordXB_zero_of_first_nn hf ‹_›
  · exact wordXB_zero_of_first_nn hf ‹_›
  · rfl

/-- SHR and SHL, the seventh and the ninth branch, keep no y (42_alu.md rules R118, R120). -/
theorem readsWord_decodeFamily8 (hf : Word.first w = 0x8#4) : ReadsWord w (decodeFamily8 w) := by
  unfold decodeFamily8
  split
  case h_7 hn | h_9 hn => exact wordXYN_x_of_first_low4 hf hn
  case h_10 => rfl
  all_goals exact wordXYN_of_first_low4 hf ‹_›

theorem readsWord_decodeFamilyE (hf : Word.first w = 0xE#4) : ReadsWord w (decodeFamilyE w) := by
  unfold decodeFamilyE
  split
  · exact wordXB_of_first_nn hf ‹_›
  · exact wordXB_of_first_nn hf ‹_›
  · rfl

theorem readsWord_decodeFamilyF (hf : Word.first w = 0xF#4) : ReadsWord w (decodeFamilyF w) := by
  unfold decodeFamilyF
  split
  case h_10 => rfl
  all_goals exact wordXB_of_first_nn hf ‹_›

/-- One bullet for each leading nibble, 0x0 to 0xF. -/
theorem readsWord_decodeWord (w : Word) : ReadsWord w (decodeWord w) := by
  unfold decodeWord
  split
  · exact readsWord_decodeFamily0 ‹_›
  · exact wordA_of_first ‹_›
  · exact wordA_of_first ‹_›
  · exact wordXB_of_first_nn ‹_› rfl
  · exact wordXB_of_first_nn ‹_› rfl
  · exact wordXYN_xy_of_first ‹_›
  · exact wordXB_of_first_nn ‹_› rfl
  · exact wordXB_of_first_nn ‹_› rfl
  · exact readsWord_decodeFamily8 ‹_›
  · exact wordXYN_xy_of_first ‹_›
  · exact wordA_of_first ‹_›
  · exact wordA_of_first ‹_›
  · exact wordXB_of_first_nn ‹_› rfl
  · exact wordXYN_of_first_low4 ‹_› rfl
  · exact readsWord_decodeFamilyE ‹_›
  · have hf : Word.first w = 0xF#4 := by
      simp only [imp_false] at *
      bv_omega
    exact readsWord_decodeFamilyF hf

theorem encodeWord_of_decodeWord {i : Instr} (h : decodeWord w = .ok i) : encodeWord i = w &&& ~~~(ignoredBits i) := by
  have reads := readsWord_decodeWord w
  rwa [h] at reads

theorem eq_unknown_of_decodeWord {e : Reject} (h : decodeWord w = .error e) : e = .unknown w := by
  have reads := readsWord_decodeWord w
  rwa [h] at reads

/-- A row's mask has no ignored bit. -/
theorem not_ignoredBits_and_mask (i : Instr) : ~~~(ignoredBits i) &&& i.row.mask = i.row.mask := by
  cases i <;> (rw [ignoredBits, Instr.row]; rfl)

/-- A word is in the row of the instruction that it decodes to (rule R79). -/
theorem covers_of_decodeWord {i : Instr} (h : decodeWord w = .ok i) : i.row.covers w = true := by
  have encoded := OpcodeRow.covers_iff.mp (Laws.RowMatch.forall_instr i)
  rw [encodeWord_of_decodeWord h, BitVec.and_assoc, not_ignoredBits_and_mask] at encoded
  exact OpcodeRow.covers_iff.mpr encoded

end

end Sys2Proof.Machine
end

section
/-! SUPPORT. The statements about the encoding (30_encoding.md). -/

namespace Sys2Proof.Machine

/-- Settles O12: the decoder reads back the fields that the encoder writes, and every row is in the map. -/
theorem decodeOfEncode : Obligations.DecodeOfEncode := by
  intro i rest
  exact ⟨List.elem_iff.mpr (row_mem_opcodeMap i), decodeBytes_bytesOfWord (decodeWord_encodeWord i) rest⟩

/-- Settles O13: each branch of the decoder keeps the fields that the row does not ignore. -/
theorem encodeOfDecode : Obligations.EncodeOfDecode := fun _ _ => encodeWord_of_decodeWord

/-- Settles O14: a decoded word is in its instruction's row, and the fields that a row fixes are those the decoder
dispatches on. -/
theorem decodeAgreesWithOpcodeMap : Obligations.DecodeAgreesWithOpcodeMap := by
  constructor
  · intro w unknown
    cases h : decodeWord w with
    | ok i => simp [wordKnown_of_covers (covers_of_decodeWord h)] at unknown
    | error e => rw [eq_unknown_of_decodeWord h]
  · intro w r hr covered
    obtain ⟨i, rfl⟩ := exists_row_of_mem_opcodeMap hr
    exact decodeWord_of_covers covered

/-- Settles O11: every word is a fixed one, and the decoder runs on it. -/
theorem sampleWordsDecode : Obligations.SampleWordsDecode := by
  unfold Obligations.SampleWordsDecode
  decide

end Sys2Proof.Machine
end

section
/-! SUPPORT. The statements about the execution cycle (40_execution_cycle.md): the instruction that a step runs, and what
every step answers. -/

namespace Sys2Proof.Machine

/-! ### What the decoder made of the bytes -/

/-- An instruction decoded from the front of a byte sequence is the one its first two bytes decode to (20_memory.md rule
R58). -/
theorem decodeWord_of_decodeBytes {hi lo : Byte} {bs rest : List Byte} {i : Instr}
    (h : decodeBytes (hi :: lo :: bs) = .ok (i, rest)) : decodeWord (wordOfBytes hi lo) = .ok i := by
  rw [decodeBytes] at h
  cases hd : decodeWord (wordOfBytes hi lo) with
  | ok j =>
    rw [hd] at h
    cases h
    rfl
  | error e =>
    rw [hd] at h
    cases h

theorem decodeWord_of_decodeTableWord {nbits w : Nat} {i : Instr} (h : decodeTableWord nbits w = some i) :
    decodeWord (tableWord nbits w) = .ok i := by
  rw [decodeTableWord] at h
  cases hd : decodeBytes (bytesOfWord (tableWord nbits w)) with
  | ok read =>
    rw [hd] at h
    cases h
    rw [← wordOfBytes_bytesOfWord (tableWord nbits w)]
    exact decodeWord_of_decodeBytes hd
  | error e =>
    rw [hd] at h
    cases h

/-! ### A step that fetches a word -/

section
variable {s : State}

/-- A step that fetches a word the decoder knows is the instruction (rules R91 to R93). -/
theorem step_of_decodeWord_ok {i : Instr} (running : s.fault = none) (fetches : s.canFetch = true)
    (decodes : decodeWord s.fetchWord = .ok i) : step s = exec i s := by
  simp only [step, running, fetches, decodes]

/-- A step that fetches a word the decoder refuses passes it (rule R95). -/
theorem step_of_decodeWord_error {e : Reject} (running : s.fault = none) (fetches : s.canFetch = true)
    (refused : decodeWord s.fetchWord = .error e) : step s = execUnknown s.fetchWord s := by
  simp only [step, running, fetches, refused]

end

theorem unchanged_passUnknown (s : State) (r : Report) : Unchanged [.pc, .reports] s (s.report r).advance := by
  simp [unchanged_iff]

/-! ### The statements -/

/-- Settles O10: the placed word is what the next step fetches, and the table's instruction is what it decodes to. -/
theorem placedWordRunsNext : Obligations.PlacedWordRunsNext := by
  intro s w i decodes
  obtain ⟨running, fetches, word⟩ := s.placeWord_fetch (tableWord 16 w)
  exact step_of_decodeWord_ok running fetches ((congrArg decodeWord word).trans (decodeWord_of_decodeTableWord decodes))

/-- Settles O5: the two bytes at pc are the fetched word. -/
theorem stepRunsDecodedInstruction : Obligations.StepRunsDecodedInstruction := by
  intro s i rest running bound decodes
  exact step_of_decodeWord_ok running (s.canFetch_iff.mpr bound) (decodeWord_of_decodeBytes decodes)

/-- Settles O6: the decoder refuses a word that is in no row of the map. -/
theorem stepPassesUnknownWord : Obligations.StepPassesUnknownWord := by
  intro s running bound unknown
  have refused := decodeAgreesWithOpcodeMap.1 s.fetchWord unknown
  exact ⟨(s.report (.unknownInstruction s.pc s.fetchWord)).advance,
    step_of_decodeWord_error running (s.canFetch_iff.mpr bound) refused, rfl, rfl, unchanged_passUnknown s _⟩

/-- Settles O9, by the cases of a step: none of them is a fault or a refusal of the host's interface. -/
theorem stepAlwaysAnswersNext : Obligations.StepAlwaysAnswersNext := by
  intro s
  rcases step_cases s with ⟨-, halted⟩ | ⟨-, -, faulted⟩ | ⟨-, -, i, -, executed⟩ | ⟨-, -, -, passed⟩
  · exact ⟨_, halted⟩
  · exact ⟨_, faulted⟩
  · exact executed ▸ exec_next i s
  · exact ⟨_, passed⟩

end Sys2Proof.Machine
end

section
/-! SUPPORT. The statements about control flow (41_control_flow.md), and the end of a run (70_reset_and_hazards.md). -/

namespace Sys2Proof.Machine

/-! ### Jumps -/

/-- The sum of a 12-bit and an 8-bit value fits the 16 bits of pc, so JP V0 does not wrap (rule R107). -/
theorem offsetTarget_toNat (nnn : Addr12) (v0 : Byte) : (offsetTarget nnn v0).toNat = nnn.toNat + v0.toNat := by
  rw [offsetTarget, BitVec.toNat_add, zext12_toNat, zext8_toNat]
  exact Nat.mod_eq_of_lt (by omega)

/-- Settles O16: the address immediate keeps its value when it is widened to pc. -/
theorem jumpSetsPc : Obligations.JumpSetsPc :=
  fun nnn s => ⟨_, rfl, zext12_toNat nnn, unchanged_jump s _⟩

/-- Settles O21: the sum that JP V0 computes is exact. -/
theorem jumpWithOffsetAddsV0 : Obligations.JumpWithOffsetAddsV0 :=
  fun nnn s => ⟨_, rfl, offsetTarget_toNat nnn (s.reg 0), unchanged_jump s _⟩

/-! ### Call and return -/

theorem unchanged_jumpStack (s : State) (a : Word) (as : List Word) :
    Unchanged [.pc, .stack] s { s with pc := a, stack := as } := by
  simp [unchanged_iff]

theorem unchanged_underflow (s : State) (r : Report) (a : Word) :
    Unchanged [.pc, .draws, .reports] s { (s.report r).drawn with pc := a } := by
  simp [unchanged_iff]

/-- Settles O17: CALL is a jump that pushes the address of the next instruction. -/
theorem callPushesReturnAddress : Obligations.CallPushesReturnAddress :=
  fun nnn s => ⟨_, rfl, zext12_toNat nnn, rfl, unchanged_jumpStack s _ _⟩

/-- Settles O18, by the two cases of RET, of which the stack admits one. -/
theorem returnPopsOrUnderflows : Obligations.ReturnPopsOrUnderflows := by
  constructor
  · intro s top rest hs
    rcases execRet_cases s with ⟨top', rest', hs', popped⟩ | ⟨empty, -⟩
    · obtain ⟨rfl, rfl⟩ := List.cons.inj (hs.symm.trans hs')
      exact ⟨_, popped, rfl, rfl, unchanged_jumpStack s _ _⟩
    · exact absurd (hs.symm.trans empty) (List.cons_ne_nil top rest)
  · intro s hs
    rcases execRet_cases s with ⟨top, rest, hs', -⟩ | ⟨-, underflowed⟩
    · exact absurd (hs'.symm.trans hs) (List.cons_ne_nil top rest)
    · exact ⟨_, underflowed, rfl, rfl, rfl, unchanged_underflow s _ _⟩

/-! ### Skips -/

/-- A skip on equality: the condition of SE. -/
theorem State.skipIf_beq_pc (s : State) (a b : Byte) :
    (s.skipIf (a == b)).pc = if a = b then s.pc + 4 else s.pc + 2 := by
  rw [State.skipIf_pc]
  simp only [beq_iff_eq]

/-- A skip on difference, read as a choice by equality: the condition of SNE. -/
theorem State.skipIf_bne_pc (s : State) (a b : Byte) :
    (s.skipIf (a != b)).pc = if a = b then s.pc + 2 else s.pc + 4 := by
  rw [State.skipIf_pc]
  simp only [bne_iff_ne, ite_not]

/-- Settles O19: SE and SNE skip on equality and on difference of the register and the immediate. -/
theorem skipsOnImmediate : Obligations.SkipsOnImmediate :=
  fun x nn s => ⟨⟨_, rfl, s.skipIf_beq_pc (s.reg x) nn, unchanged_skipIf s _⟩,
    ⟨_, rfl, s.skipIf_bne_pc (s.reg x) nn, unchanged_skipIf s _⟩⟩

/-- Settles O20: SE and SNE skip on equality and on difference of the two registers. -/
theorem skipsOnRegister : Obligations.SkipsOnRegister :=
  fun x y s => ⟨⟨_, rfl, s.skipIf_beq_pc (s.reg x) (s.reg y), unchanged_skipIf s _⟩,
    ⟨_, rfl, s.skipIf_bne_pc (s.reg x) (s.reg y), unchanged_skipIf s _⟩⟩

/-! ### The end of a run -/

/-- A jump to pc itself changes nothing (rule R101). -/
theorem exec_jp_self {nnn : Addr12} {s : State} (self : zext12 nnn = s.pc) : exec (.jp nnn) s = .next s := by
  have jumped : exec (.jp nnn) s = .next { s with pc := zext12 nnn } := rfl
  rw [jumped, self]

/-- At the end of a run a step changes nothing: the word it fetches is a jump to pc itself. -/
theorem step_of_atEnd {s : State} (h : AtEnd s) : step s = .next s := by
  obtain ⟨running, fetches, nnn, decodes, self⟩ := h
  exact (step_of_decodeWord_ok running fetches decodes).trans (exec_jp_self self)

/-- A state that a step leaves as it is stays so over any number of steps. -/
theorem run_of_step_self {s : State} (h : step s = .next s) (k : Nat) : core.run k s = .next s := by
  induction k with
  | zero => exact run_zero s
  | succ k ih => exact (run_of_next k s s h).trans ih

/-- Settles O60: a state at the end of a run is a fixed point of the step. -/
theorem endOfRunRepeats : Obligations.EndOfRunRepeats := fun _ h => run_of_step_self (step_of_atEnd h)

end Sys2Proof.Machine
end

section
/-! SUPPORT. The statements about the registers and the ALU (42_alu.md). -/

namespace Sys2Proof.Machine

/-! ### Results as numbers -/

/-- The difference wraps modulo 256 (rules R117, R119). -/
theorem sub_toNat_int (a b : Byte) : ((a - b).toNat : Int) = (a.toNat - b.toNat : Int) % 256 := by
  rw [BitVec.toNat_sub]
  omega

/-- A right shift by one halves (rule R118). -/
theorem ushiftRight_one_toNat (a : Byte) : (a >>> 1).toNat = a.toNat / 2 := by
  rw [BitVec.toNat_ushiftRight, Nat.shiftRight_eq_div_pow]

/-- A left shift by one doubles and wraps modulo 256 (rule R120). -/
theorem shiftLeft_one_toNat (a : Byte) : (a <<< 1).toNat = a.toNat * 2 % 256 := by
  rw [BitVec.toNat_shiftLeft, Nat.shiftLeft_eq]

/-! ### Flags as numbers -/

/-- The flag of a comparison. -/
theorem flagByte_decide (p : Prop) [Decidable p] : flagByte (decide p) = if p then 1 else 0 := by
  simp only [flagByte, decide_eq_true_eq]

theorem flagByte_carryOut (a b : Byte) : flagByte (carryOut a b) = if a.toNat + b.toNat > 255 then 1 else 0 :=
  flagByte_decide _

theorem flagByte_noBorrow (a b : Byte) : flagByte (noBorrow a b) = if a.toNat ≥ b.toNat then 1 else 0 :=
  flagByte_decide _

/-- The flag that holds one bit of a byte. -/
theorem flagByte_getLsbD_toNat (a : Byte) (k : Nat) : (flagByte (a.getLsbD k)).toNat = a.toNat / 2 ^ k % 2 :=
  (flagByte_toNat _).trans (Nat.toNat_testBit a.toNat k)

theorem flagByte_outBottom_toNat (a : Byte) : (flagByte (outBottom a)).toNat = a.toNat % 2 := by
  rw [outBottom, flagByte_getLsbD_toNat, pow_zero, Nat.div_one]

/-- The top bit is the only one left after dividing by 128. -/
theorem flagByte_outTop_toNat (a : Byte) : (flagByte (outTop a)).toNat = a.toNat / 128 := by
  have fits : a.toNat < 256 := a.isLt
  rw [outTop, flagByte_getLsbD_toNat]
  omega

/-! ### A result and a flag -/

/-- Settles O24: ADD writes back the wrapped sum and its carry, the flag last. -/
theorem addSetsCarry : Obligations.AddSetsCarry := fun x y s =>
  ⟨_, rfl, fun hx => by rw [s.reg_writeBack_result x _ _ hx, BitVec.toNat_add],
    (s.reg_writeBack_flag x _ _).trans (flagByte_carryOut _ _), rfl, unchanged_writeBack s x _ _⟩

/-- What writing back a difference and its no-borrow flag leaves, for SUB and SUBN alike (rules R117, R119). -/
theorem writeBack_difference (s : State) (x : RegIdx) (a b : Byte) :
    (x ≠ flagReg →
      (((s.writeBack x (a - b) (noBorrow a b)).reg x).toNat : Int) = (a.toNat - b.toNat : Int) % 256) ∧
    (s.writeBack x (a - b) (noBorrow a b)).reg flagReg = if a.toNat ≥ b.toNat then 1 else 0 :=
  ⟨fun hx => by rw [s.reg_writeBack_result x _ _ hx, sub_toNat_int],
    (s.reg_writeBack_flag x _ _).trans (flagByte_noBorrow a b)⟩

/-- Settles O25: SUB and SUBN write back a difference and its no-borrow flag, with the operands exchanged. -/
theorem subtractSetsNoBorrow : Obligations.SubtractSetsNoBorrow := by
  intro x y s
  obtain ⟨subResult, subFlag⟩ := writeBack_difference s x (s.reg x) (s.reg y)
  obtain ⟨subnResult, subnFlag⟩ := writeBack_difference s x (s.reg y) (s.reg x)
  exact ⟨⟨_, rfl, subResult, subFlag, rfl, unchanged_writeBack s x _ _⟩,
    ⟨_, rfl, subnResult, subnFlag, rfl, unchanged_writeBack s x _ _⟩⟩

/-- Settles O26: SHR and SHL write back the shifted byte and the bit that the shift drops. -/
theorem shiftsSetShiftedOutBit : Obligations.ShiftsSetShiftedOutBit := by
  intro x s
  constructor
  · refine ⟨_, rfl, fun hx => ?_, ?_, rfl, unchanged_writeBack s x _ _⟩
    · rw [s.reg_writeBack_result x _ _ hx, ushiftRight_one_toNat]
    · rw [s.reg_writeBack_flag, flagByte_outBottom_toNat]
  · refine ⟨_, rfl, fun hx => ?_, ?_, rfl, unchanged_writeBack s x _ _⟩
    · rw [s.reg_writeBack_result x _ _ hx, shiftLeft_one_toNat]
    · rw [s.reg_writeBack_flag, flagByte_outTop_toNat]

/-! ### A result without a flag -/

/-- Settles O22: both are a write of one register that goes on to the next instruction. -/
theorem immediateLoadAndAdd : Obligations.ImmediateLoadAndAdd := fun x nn s =>
  ⟨⟨_, rfl, s.reg_setReg_same x nn, rfl, unchanged_setReg s x nn⟩,
    ⟨_, rfl, (congrArg BitVec.toNat (s.reg_setReg_same x _)).trans (BitVec.toNat_add _ nn), rfl,
      unchanged_setReg s x _⟩⟩

/-- Settles O23: the four differ only in the byte they write to the one register. -/
theorem copyAndLogicLeaveFlag : Obligations.CopyAndLogicLeaveFlag := fun x _ s =>
  have written (b : Byte) : (s.setReg x b).advance.reg x = b := s.reg_setReg_same x b
  ⟨⟨_, rfl, written _, rfl, unchanged_setReg s x _⟩, ⟨_, rfl, written _, rfl, unchanged_setReg s x _⟩,
    ⟨_, rfl, written _, rfl, unchanged_setReg s x _⟩, ⟨_, rfl, written _, rfl, unchanged_setReg s x _⟩⟩

/-- A register result that took a draw: the draw count is written too (rule R121). -/
theorem unchanged_drawn_setReg (s : State) (x : RegIdx) (b : Byte) :
    Unchanged [.pc, .reg x, .draws] s (s.drawn.setReg x b).advance := by
  simp +contextual [unchanged_iff, State.reg_setReg]

/-- Settles O27: RND writes one register and counts the draw it took. -/
theorem randomMasksTheDraw : Obligations.RandomMasksTheDraw := fun x _ s =>
  ⟨_, rfl, s.drawn.reg_setReg_same x _, rfl, rfl, unchanged_drawn_setReg s x _⟩

end Sys2Proof.Machine
end

section
/-! SUPPORT. The statements about the address register and memory instructions (43_address_memory.md). -/

namespace Sys2Proof.Machine

/-! ### The address register -/

/-- A number that the width holds is kept when it is narrowed to a word. -/
theorem toNat_ofNat_of_lt {w n : Nat} (h : n < 2 ^ w) : (BitVec.ofNat w n).toNat = n :=
  (BitVec.toNat_ofNat n w).trans (Nat.mod_eq_of_lt h)

/-- The address of the last glyph fits the 16 bits of I, so none wraps (rule R132). -/
theorem glyphAddr_toNat (d : Fin 16) : (glyphAddr d).toNat = 0x050 + 5 * d.val :=
  toNat_ofNat_of_lt (by simp only [glyphBase]; omega)

/-- Settles O28: both are a write of I that goes on to the next instruction. -/
theorem addressRegisterLoads : Obligations.AddressRegisterLoads :=
  ⟨fun nnn s => ⟨_, rfl, zext12_toNat nnn, rfl, unchanged_setI s _⟩,
    fun x s => ⟨_, rfl, glyphAddr_toNat (lowNibble (s.reg x)), rfl, unchanged_setI s _⟩⟩

/-- Settles O29, by the two cases of ADD I, of which the sum admits one. -/
theorem addressAddOrOverflows : Obligations.AddressAddOrOverflows := by
  intro x s
  rcases execAddI_cases x s with ⟨exceeds, faulted⟩ | ⟨fits, added⟩
  · exact ⟨fun fits => absurd exceeds (Nat.not_lt.mpr fits), fun _ => faulted⟩
  · exact ⟨fun _ => ⟨_, added, toNat_ofNat_of_lt (Nat.lt_succ_of_le fits), rfl, unchanged_setI s _⟩,
      fun exceeds => absurd exceeds (Nat.not_lt.mpr fits)⟩

/-! ### Stores at I -/

/-- A store that is allowed completes: its bytes stand at I and up, and only pc changes besides (rules R133, R135). -/
theorem storeAtI_completes {bs : List Byte} {s : State} (allowed : StoreAllowed s bs.length) :
    ∃ t, storeAtI bs s = .next t ∧ (∀ k (hk : k < bs.length), t.mem.read (s.i.toNat + k) = bs[k]) ∧
      t.pc = s.pc + 2 ∧ Unchanged (.pc :: bytesAt s.i.toNat bs.length) s t :=
  ⟨_, storeAtI_allowed bs s allowed,
    fun k hk => Memory.read_writeBytes_inside bs s.mem s.i.toNat k hk allowed.1, rfl, unchanged_store s bs⟩

/-- Each decimal digit of a byte fits a byte, so none is cut (rule R133). -/
theorem bcdDigits_toNat (b : Byte) :
    (bcdDigits b)[0].toNat = b.toNat / 100 ∧ (bcdDigits b)[1].toNat = b.toNat / 10 % 10 ∧
    (bcdDigits b)[2].toNat = b.toNat % 10 :=
  ⟨toNat_ofNat_of_lt (by omega), toNat_ofNat_of_lt (by omega), toNat_ofNat_of_lt (by omega)⟩

/-- Settles O30: LD B is a store at I of the three digits. -/
theorem bcdStoresDigits : Obligations.BcdStoresDigits := by
  intro x s allowed
  obtain ⟨t, stores, stored, pc, frame⟩ := storeAtI_completes (bs := bcdDigits (s.reg x)) allowed
  obtain ⟨hundreds, tens, units⟩ := bcdDigits_toNat (s.reg x)
  refine ⟨t, stores, ?_, ?_, ?_, pc, frame⟩
  · exact (congrArg BitVec.toNat (stored 0 (by simp))).trans hundreds
  · exact (congrArg BitVec.toNat (stored 1 (by simp))).trans tens
  · exact (congrArg BitVec.toNat (stored 2 (by simp))).trans units

/-- The r-th byte that LD [I],Vx stores is V[r] (rule R135). -/
theorem storedRegs_getElem (x r : RegIdx) (s : State) (h : r.val < ((regsUpTo x).map s.reg).length) :
    ((regsUpTo x).map s.reg)[r.val] = s.reg r := by
  rw [List.getElem_map]
  exact congrArg s.reg (Fin.ext (regsUpTo_getElem x r.val _))

/-- Settles O31: LD [I],Vx is a store at I of V0 to Vx. -/
theorem rangeStoreCopiesRegisters : Obligations.RangeStoreCopiesRegisters := by
  intro x s allowed
  rw [← storedRegs_length x s] at allowed ⊢
  obtain ⟨t, stores, stored, pc, frame⟩ := storeAtI_completes allowed
  refine ⟨t, stores, fun r hr => ?_, pc, frame⟩
  have inRange : r.val < ((regsUpTo x).map s.reg).length :=
    (storedRegs_length x s).symm ▸ Nat.lt_succ_of_le hr
  exact (stored r.val inRange).trans (storedRegs_getElem x r s inRange)

/-! ### Loads from I -/

theorem mem_allRegs (r : RegIdx) : r ∈ allRegs := by
  revert r
  decide

/-- The frame of a change to the registers as a whole. -/
theorem unchanged_setRegs (s : State) (v : Vector Byte 16) :
    Unchanged (.pc :: allRegs.map .reg) s { s with v := v }.advance := by
  simp [unchanged_iff, mem_allRegs]

/-- Settles O32, by the case of LD Vx,[I] that the bound leaves: V0 to Vx are listed for the load and no others. -/
theorem rangeLoadFillsRegisters : Obligations.RangeLoadFillsRegisters := by
  intro x s bound
  rcases execLoadRegs_cases x s with ⟨past, -⟩ | ⟨-, loaded⟩
  · exact absurd past (Nat.not_lt.mpr (Nat.succ_le_succ bound))
  · refine ⟨_, loaded, fun r hr => ?_, fun r hr => ?_, rfl, unchanged_setRegs s _⟩
    · exact loadFrom_of_mem _ _ _ _ r ((mem_regsUpTo x r).mpr hr)
    · exact loadFrom_of_not_mem _ _ _ _ r (fun listed => absurd ((mem_regsUpTo x r).mp listed) (not_le.mpr hr))

end Sys2Proof.Machine
end

section
/-! SUPPORT. The statements about the display instructions (44_display.md). -/

namespace Sys2Proof.Machine

/-- Settles O37: CLS answers the blank display. -/
theorem clearTurnsEveryCellOff : Obligations.ClearTurnsEveryCellOff :=
  fun s => ⟨_, rfl, Display.cell_blank, rfl, rfl, exec_frame (i := .cls) (s := s) rfl⟩

/-! ### The sprite that DRW draws -/

/-- The sprite in the terms of `drawRows_cell`: one bound on the cell, then the sprite bit (rule R142). -/
theorem spriteAt_eq (s : State) (x y : RegIdx) (n : Fin 16) (cx : Fin 64) (cy : Fin 32) :
    spriteAt s x y n cx cy =
      (decide (startRow (s.reg y) ≤ cy.val ∧ cy.val < startRow (s.reg y) + n.val ∧
          s.i.toNat + (cy.val - startRow (s.reg y)) ≤ 0xFFF ∧ startCol (s.reg x) ≤ cx.val ∧
          cx.val < startCol (s.reg x) + 8) &&
        spriteBit (s.mem.read (s.i.toNat + (cy.val - startRow (s.reg y)))) (cx.val - startCol (s.reg x))) := by
  rw [Bool.eq_iff_iff]
  simp only [spriteAt, spriteBit, BitVec.getMsbD, startCol_eq, startRow_eq, Bool.and_eq_true, decide_eq_true_eq]
  constructor
  · rintro ⟨⟨⟨⟨⟨left, width⟩, top⟩, height⟩, extent⟩, bit⟩
    exact ⟨⟨by omega, by omega, extent, left, by omega⟩, width, bit⟩
  · rintro ⟨⟨top, height, extent, left, -⟩, width, bit⟩
    exact ⟨⟨⟨⟨⟨left, width⟩, top⟩, by omega⟩, extent⟩, bit⟩

/-- DRW toggles the cells where the sprite has a 1 bit. -/
theorem drawSprite_cell (x y : RegIdx) (n : Fin 16) (s : State) (cx : Fin 64) (cy : Fin 32) :
    (drawSprite x y n s).disp.cell cx cy = (s.disp.cell cx cy ^^ spriteAt s x y n cx cy) := by
  rw [drawSprite, List.range_eq_range', drawRows_cell, spriteAt_eq, Nat.add_zero]

/-- DRW reports a collision when the sprite has a 1 bit at a cell that was on. -/
theorem drawSprite_hit (x y : RegIdx) (n : Fin 16) (s : State) :
    (drawSprite x y n s).hit = true ↔ ∃ cx cy, s.disp.cell cx cy = true ∧ spriteAt s x y n cx cy = true := by
  rw [drawSprite, List.range_eq_range', drawRows_hit, Nat.add_zero]
  simp only [spriteAt_eq, Bool.and_eq_true, decide_eq_true_eq]
  constructor
  · rintro (already | ⟨cx, cy, bounds, bit, on⟩)
    · exact absurd already Bool.false_ne_true
    · exact ⟨cx, cy, on, bounds, bit⟩
  · rintro ⟨cx, cy, on, bounds, bit⟩
    exact .inr ⟨cx, cy, bounds, bit, on⟩

/-- Settles O38: DRW leaves the display that it drew and, as the flag, whether that drawing collided. -/
theorem drawTogglesSpriteCells : Obligations.DrawTogglesSpriteCells := by
  intro x y n s
  refine ⟨_, rfl, drawSprite_cell x y n s, fun collides => ?_, fun misses => ?_, rfl, rfl, unchanged_draw s _ _⟩
  · have hit : (drawSprite x y n s).hit = true := (drawSprite_hit x y n s).mpr collides
    exact (State.reg_setFlag_flag _ _).trans (congrArg flagByte hit)
  · have hit : (drawSprite x y n s).hit = false := by
      rw [← Bool.not_eq_true, drawSprite_hit]
      rintro ⟨cx, cy, on, drawn⟩
      exact Bool.false_ne_true ((misses cx cy on).symm.trans drawn)
    exact (State.reg_setFlag_flag _ _).trans (congrArg flagByte hit)

/-! ### Drawing twice -/

/-- A sprite depends on the two coordinate registers, I and memory. -/
theorem spriteAt_congr {s t : State} {x y : RegIdx} (hx : t.reg x = s.reg x) (hy : t.reg y = s.reg y)
    (hi : t.i = s.i) (hm : ∀ a, t.mem.read a = s.mem.read a) : spriteAt t x y = spriteAt s x y := by
  funext n cx cy
  simp only [spriteAt, hx, hy, hi, hm]

/-- Settles O39: the second draw toggles the same cells as the first, and a cell that was off is on for it. -/
theorem drawTwiceRestores : Obligations.DrawTwiceRestores := by
  intro x y n s t u first hx hy second
  obtain ⟨t', first', cellsT, -, -, -, -, frame⟩ := drawTogglesSpriteCells x y n s
  obtain rfl := Host.Outcome.next.inj (first.symm.trans first')
  obtain ⟨u', second', cellsU, flag, -⟩ := drawTogglesSpriteCells x y n t
  obtain rfl := Host.Outcome.next.inj (second.symm.trans second')
  have sameSprite : spriteAt t x y = spriteAt s x y :=
    spriteAt_congr hx hy (frame .i (by simp)) (fun a => frame (.byte a) (by simp))
  rw [sameSprite] at cellsU flag
  constructor
  · refine Display.ext_cell _ _ fun cx cy => ?_
    rw [cellsU, cellsT, Bool.xor_assoc, Bool.xor_self, Bool.xor_false]
  · rintro ⟨cx, cy, drawn, off⟩
    exact flag ⟨cx, cy, by rw [cellsT, off, drawn, Bool.false_xor], drawn⟩

end Sys2Proof.Machine
end

section
/-! SUPPORT. The statements about the timer instructions (45_timers.md). -/

namespace Sys2Proof.Machine

/-- Settles O41: each transfer answers one named update, and its frame is the one that its instruction has. -/
theorem timerTransfers : Obligations.TimerTransfers := fun x s =>
  ⟨⟨_, rfl, s.reg_setReg_same x s.dt, rfl, exec_frame (i := .ldVxDt x) (s := s) rfl⟩,
    ⟨_, rfl, rfl, rfl, exec_frame (i := .ldDtVx x) (s := s) rfl⟩,
    _, rfl, rfl, rfl, exec_frame (i := .ldStVx x) (s := s) rfl⟩

end Sys2Proof.Machine
end

section
/-! SUPPORT. The statements about the keyboard instructions and the keyboard-wait latch (46_keyboard.md). -/

namespace Sys2Proof.Machine

/-! ### The latch is Armed only at an LD Vx,K (rule R165) -/

/-- Only LD Vx,K writes the latch. -/
theorem mayWrite_wait_iff (i : Instr) (s : State) : mayWrite i s .wait ↔ ∃ x, i = .ldVxK x := by
  cases i <;> simp [mayWrite, bytesAt]

section
variable {s t : State}

/-- Where the word at pc is no LD Vx,K the latch is Idle, and it stays so if it is not written. -/
theorem WaitLatchOk.of_other_word (ok : WaitLatchOk s) (other : ∀ x, decodeWord s.fetchWord ≠ .ok (.ldVxK x))
    (kept : t.wait = s.wait) : WaitLatchOk t := by
  intro k armed
  obtain ⟨-, x, decodes⟩ := ok k (kept.symm.trans armed)
  exact absurd decodes (other x)

/-- LD Vx,K holds, or arms the latch and leaves pc and memory, or leaves the latch Idle (rule R163). -/
theorem execLdVxK_keeps_waitLatch {x : RegIdx} (ok : WaitLatchOk s) (fetches : s.canFetch = true)
    (decodes : decodeWord s.fetchWord = .ok (.ldVxK x)) (h : execLdVxK x s = .next t) : WaitLatchOk t := by
  rcases execLdVxK_cases x s with e | ⟨k, e⟩ | ⟨b, e⟩ <;> obtain rfl := Host.Outcome.next.inj (e.symm.trans h)
  · exact ok
  · exact fun _ _ => ⟨fetches, x, decodes⟩
  · exact fun _ armed => Wait.noConfusion armed

/-- The instruction at pc keeps the invariant: LD Vx,K by its cases, every other one because it leaves the latch. -/
theorem exec_keeps_waitLatch {i : Instr} (ok : WaitLatchOk s) (fetches : s.canFetch = true)
    (decodes : decodeWord s.fetchWord = .ok i) (h : exec i s = .next t) : WaitLatchOk t := by
  by_cases waits : ∃ x, i = .ldVxK x
  · obtain ⟨x, rfl⟩ := waits
    exact execLdVxK_keeps_waitLatch ok fetches decodes h
  · have other (x : RegIdx) : decodeWord s.fetchWord ≠ .ok (.ldVxK x) :=
      fun found => waits ⟨x, Except.ok.inj (decodes.symm.trans found)⟩
    exact ok.of_other_word other (exec_frame h .wait ((mayWrite_wait_iff i s).not.mpr waits))

theorem step_keeps_waitLatch (ok : WaitLatchOk s) (h : step s = .next t) : WaitLatchOk t := by
  rcases step_cases s with ⟨-, e⟩ | ⟨-, -, e⟩ | ⟨-, bound, i, decodes, e⟩ | ⟨-, -, ⟨r, refused⟩, e⟩
  · obtain rfl := Host.Outcome.next.inj (e.symm.trans h)
    exact ok
  · obtain rfl := Host.Outcome.next.inj (e.symm.trans h)
    exact ok
  · exact exec_keeps_waitLatch ok (s.canFetch_iff.mpr bound) decodes (e.symm.trans h)
  · obtain rfl := Host.Outcome.next.inj (e.symm.trans h)
    exact ok.of_other_word (by simp [refused]) rfl

end

/-- Settles O47: the ports other than `step()` change neither the latch nor pc nor memory. -/
theorem portCallsKeepWaitLatch : Obligations.PortCallsKeepWaitLatch := by
  intro c s t ok h
  cases c with
  | step => exact step_keeps_waitLatch ok h
  | setInput | tickTimers | display | consumeFrame =>
    obtain rfl := Host.Outcome.next.inj h
    exact ok

/-! ### The choice among the keys that are down (rule R162) -/

theorem State.keysDown_eq_nil_iff (s : State) : s.keysDown = [] ↔ ∀ k, s.key k = false := by
  simp [List.eq_nil_iff_forall_not_mem]

/-- The number of the draw names an entry of the list, modulo its length; with one key down it names that key. -/
theorem chooseKey_eq_getElem (k : KeyIdx) (ks : List KeyIdx) (r : Nat) :
    chooseKey k ks r = (k :: ks)[r % (ks.length + 1)]'(Nat.mod_lt r (Nat.succ_pos _)) := by
  cases ks with
  | nil => simp [chooseKey, Nat.mod_one]
  | cons j js => exact List.getD_eq_getElem (k :: j :: js) k (Nat.mod_lt r (Nat.succ_pos (js.length + 1)))

theorem chooseKey_mem (k : KeyIdx) (ks : List KeyIdx) (r : Nat) : chooseKey k ks r ∈ k :: ks :=
  chooseKey_eq_getElem k ks r ▸ List.getElem_mem _

/-- A listed key is chosen by its place in the list. -/
theorem exists_chooseKey_eq {j k : KeyIdx} {ks : List KeyIdx} (hj : j ∈ k :: ks) : ∃ r, chooseKey k ks r = j := by
  obtain ⟨n, hn, rfl⟩ := List.getElem_of_mem hj
  have place : n % (ks.length + 1) = n := Nat.mod_eq_of_lt hn
  exact ⟨n, by simp only [chooseKey_eq_getElem, place]⟩

/-- Settles O46: the list that is chosen from holds exactly the keys that are down. -/
theorem keyChoiceIsAnyKeyDown : Obligations.KeyChoiceIsAnyKeyDown := by
  intro s k ks down
  have listed (j : KeyIdx) : j ∈ k :: ks ↔ s.key j = true := down ▸ s.mem_keysDown j
  exact ⟨fun r => (listed _).mp (chooseKey_mem k ks r), fun j hj => exists_chooseKey_eq ((listed j).mpr hj)⟩

/-! ### The four rows of the wait's table (rule R163) -/

section
variable {s : State}

theorem execLdVxK_of_idle_up (x : RegIdx) (idle : s.wait = .idle) (up : s.keysDown = []) :
    execLdVxK x s = .next s := by
  simp only [execLdVxK, idle, up]

theorem execLdVxK_of_idle_down (x : RegIdx) {k : KeyIdx} {ks : List KeyIdx} (idle : s.wait = .idle)
    (down : s.keysDown = k :: ks) :
    execLdVxK x s = .next { s.drawn with wait := .armed (chooseKey k ks (Config.drawKey s.draws)) } := by
  simp only [execLdVxK, idle, down]

theorem execLdVxK_of_armed_down (x : RegIdx) {k : KeyIdx} (armed : s.wait = .armed k) (down : s.key k = true) :
    execLdVxK x s = .next s := by
  simp only [execLdVxK, armed, down, if_true]

theorem execLdVxK_of_armed_up (x : RegIdx) {k : KeyIdx} (armed : s.wait = .armed k) (up : s.key k = false) :
    execLdVxK x s = .next ({ s with wait := .idle }.setReg x k.val).advance := by
  simp only [execLdVxK, armed, up, Bool.false_eq_true, if_false]

end

theorem unchanged_arm (s : State) (w : Wait) : Unchanged [.wait, .draws] s { s.drawn with wait := w } := by
  simp [unchanged_iff]

theorem unchanged_complete (s : State) (x : RegIdx) (b : Byte) :
    Unchanged [.pc, .reg x, .wait] s ({ s with wait := .idle }.setReg x b).advance := by
  simp +contextual [unchanged_iff, State.reg_setReg]

/-- A key index fits the byte of the register that it is written to. -/
theorem keyByte_toNat (k : KeyIdx) : (BitVec.ofNat 8 k.val).toNat = k.val := toNat_ofNat_of_lt (by omega)

/-- Settles O45, row by row. -/
theorem keyWaitTransitions : Obligations.KeyWaitTransitions := by
  intro x s
  refine ⟨fun idle up => ?_, fun idle ⟨j, hj⟩ => ?_, fun k armed down => ?_, fun k armed up => ?_⟩
  · exact execLdVxK_of_idle_up x idle (s.keysDown_eq_nil_iff.mpr up)
  · obtain ⟨k, ks, down⟩ := List.exists_cons_of_ne_nil (List.ne_nil_of_mem ((s.mem_keysDown j).mpr hj))
    have chosen := (keyChoiceIsAnyKeyDown s k ks down).1 (Config.drawKey s.draws)
    exact ⟨_, _, execLdVxK_of_idle_down x idle down, chosen, rfl, rfl, unchanged_arm s _⟩
  · exact execLdVxK_of_armed_down x armed down
  · have written := congrArg BitVec.toNat (State.reg_setReg_same { s with wait := .idle } x (BitVec.ofNat 8 k.val))
    exact ⟨_, execLdVxK_of_armed_up x armed up, written.trans (keyByte_toNat k), rfl, rfl, unchanged_complete s x _⟩

/-! ### The key skips (rules R160, R161) -/

/-- A skip on the opposite condition is the choice the other way round. -/
theorem State.skipIf_not_pc (s : State) (c : Bool) : (s.skipIf (!c)).pc = if c then s.pc + 2 else s.pc + 4 := by
  cases c <;> rfl

/-- Settles O44: the key that is tested is the low nibble of Vx. -/
theorem keySkipsTestLowNibble : Obligations.KeySkipsTestLowNibble := by
  intro x s k named
  have key : k = lowNibble (s.reg x) := Fin.ext named
  subst key
  exact ⟨⟨_, rfl, s.skipIf_pc _, unchanged_skipIf s _⟩, ⟨_, rfl, s.skipIf_not_pc _, unchanged_skipIf s _⟩⟩

end Sys2Proof.Machine
end

section
/-! SUPPORT. The statements about the exceptions (60_exceptions.md): when an instruction raises a fault, and the tick. -/

namespace Sys2Proof.Machine

/-! ### When an instruction raises a fault (rule R170, codes 4 to 6) -/

theorem glyphWrite_eq_write_iff (g : GlyphWrite) : g = .write ↔ ¬g = .fault := by cases g <;> decide

/-- A store is allowed when it passes both checks of a store at I: the extent, and the protected glyph table. -/
theorem storeAllowed_iff (s : State) (len : Nat) : StoreAllowed s len ↔
    s.i.toNat + len ≤ memSize ∧
      ¬(s.glyphWrite = .fault ∧ meetsGlyphs s.i.toNat (s.i.toNat + len - 1) = true) := by
  have apart : ¬meetsGlyphs s.i.toNat (s.i.toNat + len - 1) = true ↔
      s.i.toNat + len ≤ 0x050 ∨ 0x0A0 ≤ s.i.toNat := by
    rw [meetsGlyphs_iff]
    omega
  rw [StoreAllowed, not_and_or, ← glyphWrite_eq_write_iff, apart]

section
variable {s t : State} (running : s.fault = none)
include running

/-- A store at I raises a fault exactly when it is not allowed. -/
theorem storeAtI_faults_iff {bs : List Byte} (h : storeAtI bs s = .next t) :
    t.fault ≠ none ↔ ¬StoreAllowed s bs.length := by
  rw [storeAllowed_iff]
  rcases storeAtI_cases bs s with ⟨past, e⟩ | ⟨-, gw, meets, e⟩ | ⟨bound, misses, e⟩ <;>
    obtain rfl := Host.Outcome.next.inj (e.symm.trans h)
  · exact iff_of_true (Option.some_ne_none _) fun allowed => Nat.not_lt.mpr allowed.1 past
  · exact iff_of_true (Option.some_ne_none _) fun allowed => allowed.2 ⟨gw, meets⟩
  · exact iff_of_false (not_not_intro running) (not_not_intro ⟨bound, misses⟩)

/-- ADD I, Vx raises a fault exactly when the sum exceeds 16 bits. -/
theorem execAddI_faults_iff {x : RegIdx} (h : execAddI x s = .next t) :
    t.fault ≠ none ↔ s.i.toNat + (s.reg x).toNat > 0xFFFF := by
  rcases execAddI_cases x s with ⟨exceeds, e⟩ | ⟨fits, e⟩ <;> obtain rfl := Host.Outcome.next.inj (e.symm.trans h)
  · exact iff_of_true (Option.some_ne_none _) exceeds
  · exact iff_of_false (not_not_intro running) (Nat.not_lt.mpr fits)

/-- LD Vx, [I] raises a fault exactly when the range ends past the extent. -/
theorem execLoadRegs_faults_iff {x : RegIdx} (h : execLoadRegs x s = .next t) :
    t.fault ≠ none ↔ s.i.toNat + x.val > 0xFFF := by
  rcases execLoadRegs_cases x s with ⟨past, e⟩ | ⟨bound, e⟩ <;> obtain rfl := Host.Outcome.next.inj (e.symm.trans h)
  · exact iff_of_true (Option.some_ne_none _) (Nat.lt_of_succ_lt_succ past)
  · exact iff_of_false (not_not_intro running) (Nat.not_lt.mpr (Nat.le_of_succ_le_succ bound))

/-- An instruction that may not write the fault record raises no fault. -/
theorem exec_no_fault {i : Instr} (h : exec i s = .next t) (hw : ¬mayWrite i s .fault) : t.fault = none :=
  (exec_frame h .fault hw).trans running

end

/-- Settles O51: four instructions may write the fault record, each exactly under its condition. -/
theorem instructionsFaultExactlyWhen : Obligations.InstructionsFaultExactlyWhen := by
  intro i s t running h
  cases i with
  | addI x => exact execAddI_faults_iff running h
  | ldB x => exact storeAtI_faults_iff running (bs := bcdDigits (s.reg x)) h
  | storeRegs x =>
    rw [faultsNow, ← storedRegs_length x s]
    exact storeAtI_faults_iff running h
  | loadRegs x => exact execLoadRegs_faults_iff running h
  | _ => exact iff_of_false (not_not_intro (exec_no_fault running h (by simp [mayWrite]))) id

/-! ### The tick (rule R178) -/

/-- Settles O42: both timers are decremented, and the tick's frame is all the rest. -/
theorem tickSaturatesAtZero : Obligations.TickSaturatesAtZero := fun s =>
  ⟨_, rfl, tickDown_toNat s.dt, tickDown_toNat s.st, unchanged_tickTimers s⟩

end Sys2Proof.Machine
end

section
/-! SUPPORT. What no instruction can read (10_state.md rule R40): the step without it. -/

namespace Sys2Proof.Machine

/-- The state without what no instruction can read: ST, the dirty flag and the reports are emptied. -/
def State.shown (s : State) : State := { s with st := 0, dirty := false, reports := [] }

/-- Two states that differ only in the hidden fields are those that show the same. -/
theorem sameButHidden_iff (s u : State) : SameButHidden s u ↔ s.shown = u.shown := by
  constructor
  · intro h
    exact (congrArg State.shown h).symm
  · intro h
    cases s
    cases u
    simpa [SameButHidden, State.shown, eq_comm] using h

/-! ### An instruction shows the same from states that show the same -/

theorem storeAtI_shown (bs : List Byte) (s : State) :
    mapNext State.shown (storeAtI bs s.shown) = mapNext State.shown (storeAtI bs s) := by
  unfold storeAtI
  simp only [apply_ite (mapNext State.shown)]
  rfl

theorem execAddI_shown (x : RegIdx) (s : State) :
    mapNext State.shown (execAddI x s.shown) = mapNext State.shown (execAddI x s) := by
  unfold execAddI
  simp only [apply_ite (mapNext State.shown)]
  rfl

theorem execLoadRegs_shown (x : RegIdx) (s : State) :
    mapNext State.shown (execLoadRegs x s.shown) = mapNext State.shown (execLoadRegs x s) := by
  unfold execLoadRegs
  simp only [apply_ite (mapNext State.shown)]
  rfl

/-- The report of an underflow is hidden (41_control_flow.md rule R100). -/
theorem execRet_shown (s : State) : mapNext State.shown (execRet s.shown) = mapNext State.shown (execRet s) := by
  have stack : s.shown.stack = s.stack := rfl
  unfold execRet
  rw [stack]
  cases s.stack <;> rfl

theorem execLdVxK_shown (x : RegIdx) (s : State) :
    mapNext State.shown (execLdVxK x s.shown) = mapNext State.shown (execLdVxK x s) := by
  have wait : s.shown.wait = s.wait := rfl
  have down : s.shown.keysDown = s.keysDown := rfl
  unfold execLdVxK
  rw [wait, down]
  cases s.wait with
  | idle => cases s.keysDown <;> rfl
  | armed k =>
    simp only [apply_ite (mapNext State.shown)]
    rfl

/-- CLS, DRW and LD ST, Vx write hidden fields and the others leave them; none reads one. -/
theorem exec_shown (i : Instr) (s : State) :
    mapNext State.shown (exec i s.shown) = mapNext State.shown (exec i s) := by
  cases i with
  | ret => exact execRet_shown s
  | addI x => exact execAddI_shown x s
  | ldVxK x => exact execLdVxK_shown x s
  | ldB x => exact storeAtI_shown (bcdDigits (s.reg x)) s
  | storeRegs x => exact storeAtI_shown ((regsUpTo x).map s.reg) s
  | loadRegs x => exact execLoadRegs_shown x s
  | _ => rfl

/-- The fault record, pc and the fetched word are shown, so the step takes the same case (40_execution_cycle.md rule
R91). -/
theorem step_shown (s : State) : mapNext State.shown (step s.shown) = mapNext State.shown (step s) := by
  have fault : s.shown.fault = s.fault := rfl
  have fetches : s.shown.canFetch = s.canFetch := rfl
  have word : s.shown.fetchWord = s.fetchWord := rfl
  unfold step
  rw [fault, fetches, word]
  cases s.fault with
  | some k => rfl
  | none =>
    cases s.canFetch with
    | false => rfl
    | true =>
      cases decodeWord s.fetchWord with
      | ok i => exact exec_shown i s
      | error e => rfl

/-- One step from two states that differ only in the hidden fields ends in two such states. -/
theorem step_keeps_sameButHidden {s u : State} (h : SameButHidden s u) :
    ∃ t v, step s = .next t ∧ step u = .next v ∧ SameButHidden t v := by
  obtain ⟨t, stepS⟩ := stepAlwaysAnswersNext s
  obtain ⟨v, stepU⟩ := stepAlwaysAnswersNext u
  have same : mapNext State.shown (step s) = mapNext State.shown (step u) := by
    rw [← step_shown s, (sameButHidden_iff s u).mp h, step_shown u]
  rw [stepS, stepU] at same
  exact ⟨t, v, stepS, stepU, (sameButHidden_iff t v).mpr (Host.Outcome.next.inj same)⟩

/-- Settles O58, by induction on the number of steps: one step keeps the relation. -/
theorem hiddenStateNeverLeaks : Obligations.HiddenStateNeverLeaks := by
  intro k
  induction k with
  | zero => exact fun s u h => ⟨s, u, run_zero s, run_zero u, h⟩
  | succ k ih =>
    intro s u h
    obtain ⟨s', u', stepS, stepU, h'⟩ := step_keeps_sameButHidden h
    obtain ⟨t, v, runS, runU, related⟩ := ih s' u' h'
    exact ⟨t, v, (run_of_next k s s' stepS).trans runS, (run_of_next k u u' stepU).trans runU, related⟩

end Sys2Proof.Machine
end

section
/-! SUPPORT. The unknown words (30_encoding.md rule R80), by the hexadecimal digits that the decoder dispatches on. -/

namespace Sys2Proof.Machine

/-! ### The digits of a word as numbers -/

theorem first_toNat (w : Word) : (Word.first w).toNat = w.toNat / 4096 := by
  rw [Word.first, BitVec.extractLsb'_toNat, Nat.shiftRight_eq_div_pow]
  omega

theorem nn_toNat (w : Word) : (Word.nn w).toNat = w.toNat % 256 := by
  rw [Word.nn, BitVec.extractLsb'_toNat, Nat.shiftRight_zero]

theorem low4_toNat (w : Word) : (Word.low4 w).toNat = w.toNat % 16 := by
  rw [Word.low4, BitVec.extractLsb'_toNat, Nat.shiftRight_zero]

/-! ### What each family refuses -/

theorem decodeFamily0_unknown_iff (w : Word) :
    decodeFamily0 w = .error (.unknown w) ↔ w.toNat % 256 ≠ 0xE0 ∧ w.toNat % 256 ≠ 0xEE := by
  rw [← nn_toNat]
  unfold decodeFamily0
  split
  case h_3 =>
    simp only [imp_false, true_iff] at *
    bv_omega
  all_goals simp [*]

theorem decodeFamily8_unknown_iff (w : Word) :
    decodeFamily8 w = .error (.unknown w) ↔ w.toNat % 16 ∈ [0x8, 0x9, 0xA, 0xB, 0xC, 0xD, 0xF] := by
  rw [← low4_toNat]
  unfold decodeFamily8
  split
  case h_10 =>
    simp only [imp_false, true_iff, List.mem_cons, List.not_mem_nil, or_false] at *
    bv_omega
  all_goals simp [*]

theorem decodeFamilyE_unknown_iff (w : Word) :
    decodeFamilyE w = .error (.unknown w) ↔ w.toNat % 256 ≠ 0x9E ∧ w.toNat % 256 ≠ 0xA1 := by
  rw [← nn_toNat]
  unfold decodeFamilyE
  split
  case h_3 =>
    simp only [imp_false, true_iff] at *
    bv_omega
  all_goals simp [*]

theorem decodeFamilyF_unknown_iff (w : Word) : decodeFamilyF w = .error (.unknown w) ↔
    w.toNat % 256 ∉ [0x07, 0x0A, 0x15, 0x18, 0x1E, 0x29, 0x33, 0x55, 0x65] := by
  rw [← nn_toNat]
  unfold decodeFamilyF
  split
  case h_10 =>
    simp only [imp_false, true_iff, List.mem_cons, List.not_mem_nil, or_false] at *
    bv_omega
  all_goals simp [*]

/-- Settles O15, by the leading nibble: only the families 0x0, 0x8, 0xE and 0xF, the first, the ninth and the last two
branches of the decoder, refuse a word. -/
theorem unknownWordsAreExactly : Obligations.UnknownWordsAreExactly := by
  intro w
  rw [← decodeFamily0_unknown_iff, ← decodeFamily8_unknown_iff, ← decodeFamilyE_unknown_iff,
    ← decodeFamilyF_unknown_iff, ← first_toNat]
  unfold decodeWord
  split
  case h_16 =>
    simp only [imp_false] at *
    have hf : Word.first w = 0xF#4 := by bv_omega
    simp [hf]
  all_goals simp [*]

end Sys2Proof.Machine
end

section
/-! SUPPORT. The faults of a step and of the port calls (60_exceptions.md): a halted machine, what a step that raises a
fault changes, and the accesses at I. -/

namespace Sys2Proof.Machine

/-! ### The step that does nothing and the fetch fault (40_execution_cycle.md rules R91, R96) -/

theorem step_of_fault {s : State} (halted : s.fault ≠ none) : step s = .next s := by
  rcases step_cases s with ⟨-, e⟩ | ⟨running, -⟩ | ⟨running, -⟩ | ⟨running, -⟩
  · exact e
  all_goals exact absurd running halted

/-- Settles O8: a halted machine is a fixed point of the step. -/
theorem haltedStepsChangeNothing : Obligations.HaltedStepsChangeNothing :=
  fun k _ halted => run_of_step_self (step_of_fault halted) k

/-- Settles O7, by the cases of a step, of which pc and the fault record admit one. -/
theorem stepFaultsPastMemory : Obligations.StepFaultsPastMemory := by
  intro s running past
  rcases step_cases s with ⟨halted, -⟩ | ⟨-, -, faulted⟩ | ⟨-, bound, -⟩ | ⟨-, bound, -⟩
  · exact absurd running halted
  · exact faulted
  all_goals exact absurd past (Nat.not_lt.mpr bound)

/-- Settles O53: a step of a halted machine changes nothing, and no other port writes the fault record. -/
theorem faultIsSticky : Obligations.FaultIsSticky := by
  intro c s t k recorded h
  cases c with
  | step =>
    have halted : s.fault ≠ none := by simp [recorded]
    obtain rfl := Host.Outcome.next.inj ((step_of_fault halted).symm.trans h)
    exact recorded
  | setInput | tickTimers | display | consumeFrame =>
    obtain rfl := Host.Outcome.next.inj h
    exact recorded

/-! ### Faults are precise (60_exceptions.md rule R173) -/

/-- From `s` to `t` the fault record is kept, or it is all that changes. -/
def FaultPrecise (s t : State) : Prop := t.fault = s.fault ∨ t = { s with fault := t.fault }

section
variable {s t : State}

theorem storeAtI_faultPrecise {bs : List Byte} (h : storeAtI bs s = .next t) : FaultPrecise s t := by
  rcases storeAtI_cases bs s with ⟨-, e⟩ | ⟨-, -, -, e⟩ | ⟨-, -, e⟩ <;>
    obtain rfl := Host.Outcome.next.inj (e.symm.trans h)
  · exact .inr rfl
  · exact .inr rfl
  · exact .inl rfl

theorem execAddI_faultPrecise {x : RegIdx} (h : execAddI x s = .next t) : FaultPrecise s t := by
  rcases execAddI_cases x s with ⟨-, e⟩ | ⟨-, e⟩ <;> obtain rfl := Host.Outcome.next.inj (e.symm.trans h)
  · exact .inr rfl
  · exact .inl rfl

theorem execLoadRegs_faultPrecise {x : RegIdx} (h : execLoadRegs x s = .next t) : FaultPrecise s t := by
  rcases execLoadRegs_cases x s with ⟨-, e⟩ | ⟨-, e⟩ <;> obtain rfl := Host.Outcome.next.inj (e.symm.trans h)
  · exact .inr rfl
  · exact .inl rfl

/-- The four instructions that may write the fault record write nothing else when they do. -/
theorem exec_faultPrecise {i : Instr} (h : exec i s = .next t) : FaultPrecise s t := by
  cases i with
  | addI x => exact execAddI_faultPrecise h
  | ldB | storeRegs => exact storeAtI_faultPrecise h
  | loadRegs x => exact execLoadRegs_faultPrecise h
  | _ => exact .inl (exec_frame h .fault (by simp [mayWrite]))

theorem step_faultPrecise (h : step s = .next t) : FaultPrecise s t := by
  rcases step_cases s with ⟨-, e⟩ | ⟨-, -, e⟩ | ⟨-, -, i, -, e⟩ | ⟨-, -, -, e⟩
  · obtain rfl := Host.Outcome.next.inj (e.symm.trans h)
    exact .inl rfl
  · obtain rfl := Host.Outcome.next.inj (e.symm.trans h)
    exact .inr rfl
  · exact exec_faultPrecise (e.symm.trans h)
  · obtain rfl := Host.Outcome.next.inj (e.symm.trans h)
    exact .inl rfl

end

/-- Settles O52: a step keeps the fault record or changes nothing else. -/
theorem faultsArePrecise : Obligations.FaultsArePrecise :=
  fun _ _ h changed => (step_faultPrecise h).resolve_left changed

/-! ### The faults of the accesses at I (43_address_memory.md, 20_memory.md) -/

/-- Settles O33: the bound is what a store at I and LD Vx,[I] check first. -/
theorem rangePastMemoryFaults : Obligations.RangePastMemoryFaults := by
  intro x s
  refine ⟨fun past => storeAtI_past _ s (Nat.succ_lt_succ past), fun past => ⟨storeAtI_past _ s ?_, ?_⟩⟩
  · rw [storedRegs_length]
    exact Nat.succ_lt_succ past
  · rcases execLoadRegs_cases x s with ⟨-, faulted⟩ | ⟨bound, -⟩
    · exact faulted
    · exact absurd (Nat.succ_lt_succ past) (Nat.not_lt.mpr bound)

/-- Settles O34: a range that meets the glyph table starts low enough to be in bounds, since it has at most 16 bytes. -/
theorem glyphStoreFaults : Obligations.GlyphStoreFaults := by
  intro x s setting
  refine ⟨fun lo hi => storeAtI_glyph _ s ?_ setting lo hi, fun lo hi => storeAtI_glyph _ s ?_ setting lo ?_⟩
  · simp only [bcdDigits_length, memSize]
    omega
  · simp only [storedRegs_length, memSize]
    omega
  · rw [storedRegs_length]
    exact hi

/-! ### A store and the next fetch (20_memory.md) -/

/-- Settles O36: LD [I],Vx stores V[r] and V[r + 1] side by side, and a fetch there joins them. -/
theorem storeIsSeenByFetch : Obligations.StoreIsSeenByFetch := by
  intro x r s t allowed below stores u mem pc
  obtain ⟨t', stores', stored, -⟩ := rangeStoreCopiesRegisters x s allowed
  obtain rfl := Host.Outcome.next.inj (stores.symm.trans stores')
  have next : (r + 1).val = r.val + 1 := Fin.val_add_one_of_lt (below.trans_le x.le_last)
  have second := stored (r + 1) (Fin.add_one_le_of_lt below)
  rw [next, ← Nat.add_assoc] at second
  rw [State.fetchWord, mem, pc, stored r below.le, second]

end Sys2Proof.Machine
end

section
/-! SUPPORT. The bounds of the return addresses and of pc (10_state.md rule R25). -/

namespace Sys2Proof.Machine

section
variable {s t : State}

/-! ### Return addresses -/

/-- Only RET and CALL write the stack. -/
theorem mayWrite_stack_iff (i : Instr) (s : State) : mayWrite i s .stack ↔ i = .ret ∨ ∃ nnn, i = .call nnn := by
  cases i <;> simp [mayWrite, bytesAt]

/-- A pop leaves return addresses that were there. -/
theorem execRet_keeps_stackBounded (bounded : StackBounded s) (h : execRet s = .next t) : StackBounded t := by
  rcases execRet_cases s with ⟨top, rest, stack, e⟩ | ⟨-, e⟩ <;> obtain rfl := Host.Outcome.next.inj (e.symm.trans h)
  · intro a ha
    exact bounded a (stack ▸ List.mem_cons_of_mem top ha)
  · exact bounded

/-- A CALL that was fetched pushes an address of at most 0xFFE + 2. -/
theorem execCall_keeps_stackBounded {nnn : Addr12} (bounded : StackBounded s) (fetched : s.pc.toNat ≤ 0xFFE)
    (h : execCall nnn s = .next t) : StackBounded t := by
  obtain rfl := Host.Outcome.next.inj h
  have pushed : (s.pc + 2).toNat ≤ 0x1000 := by bv_omega
  exact List.forall_mem_cons.mpr ⟨pushed, bounded⟩

theorem exec_keeps_stackBounded {i : Instr} (bounded : StackBounded s) (fetched : s.pc.toNat ≤ 0xFFE)
    (h : exec i s = .next t) : StackBounded t := by
  by_cases writes : mayWrite i s .stack
  · rcases (mayWrite_stack_iff i s).mp writes with rfl | ⟨nnn, rfl⟩
    · exact execRet_keeps_stackBounded bounded h
    · exact execCall_keeps_stackBounded bounded fetched h
  · have kept : t.stack = s.stack := exec_frame h .stack writes
    rwa [StackBounded, kept]

theorem step_keeps_stackBounded (bounded : StackBounded s) (h : step s = .next t) : StackBounded t := by
  rcases step_cases s with ⟨-, e⟩ | ⟨-, -, e⟩ | ⟨-, fetched, i, -, e⟩ | ⟨-, -, -, e⟩
  · obtain rfl := Host.Outcome.next.inj (e.symm.trans h)
    exact bounded
  · obtain rfl := Host.Outcome.next.inj (e.symm.trans h)
    exact bounded
  · exact exec_keeps_stackBounded bounded fetched (e.symm.trans h)
  · obtain rfl := Host.Outcome.next.inj (e.symm.trans h)
    exact bounded

theorem hostCall_keeps_stackBounded {c : HostCall} (bounded : StackBounded s) (h : hostCall c s = .next t) :
    StackBounded t := by
  cases c with
  | step => exact step_keeps_stackBounded bounded h
  | setInput | tickTimers | display | consumeFrame =>
    obtain rfl := Host.Outcome.next.inj h
    exact bounded

/-! ### The next pc -/

/-- The next pc of an instruction that transfers control nowhere: it holds, goes on, or skips (40_execution_cycle.md
rule R94). -/
def PcFollows (s t : State) : Prop := t.pc = s.pc ∨ t.pc = s.pc + 2 ∨ t.pc = s.pc + 4

theorem skipIf_pcFollows (s : State) (c : Bool) : PcFollows s (s.skipIf c) := by
  cases c
  · exact .inr (.inl rfl)
  · exact .inr (.inr rfl)

theorem storeAtI_pcFollows {bs : List Byte} (h : storeAtI bs s = .next t) : PcFollows s t := by
  rcases storeAtI_cases bs s with ⟨-, e⟩ | ⟨-, -, -, e⟩ | ⟨-, -, e⟩ <;>
    obtain rfl := Host.Outcome.next.inj (e.symm.trans h)
  · exact .inl rfl
  · exact .inl rfl
  · exact .inr (.inl rfl)

theorem execAddI_pcFollows {x : RegIdx} (h : execAddI x s = .next t) : PcFollows s t := by
  rcases execAddI_cases x s with ⟨-, e⟩ | ⟨-, e⟩ <;> obtain rfl := Host.Outcome.next.inj (e.symm.trans h)
  · exact .inl rfl
  · exact .inr (.inl rfl)

theorem execLoadRegs_pcFollows {x : RegIdx} (h : execLoadRegs x s = .next t) : PcFollows s t := by
  rcases execLoadRegs_cases x s with ⟨-, e⟩ | ⟨-, e⟩ <;> obtain rfl := Host.Outcome.next.inj (e.symm.trans h)
  · exact .inl rfl
  · exact .inr (.inl rfl)

theorem execLdVxK_pcFollows {x : RegIdx} (h : execLdVxK x s = .next t) : PcFollows s t := by
  rcases execLdVxK_cases x s with e | ⟨k, e⟩ | ⟨b, e⟩ <;> obtain rfl := Host.Outcome.next.inj (e.symm.trans h)
  · exact .inl rfl
  · exact .inl rfl
  · exact .inr (.inl rfl)

/-- Where the next pc of an instruction comes from: the address immediate with or without V0, the stack or the draw,
or pc itself. -/
theorem exec_pc_cases {i : Instr} (h : exec i s = .next t) :
    (∃ nnn, t.pc = zext12 nnn) ∨ (∃ nnn, t.pc = offsetTarget nnn (s.reg 0)) ∨ i = .ret ∨ PcFollows s t := by
  cases i with
  | jp nnn | call nnn =>
    obtain rfl := Host.Outcome.next.inj h
    exact .inl ⟨nnn, rfl⟩
  | jpV0 nnn =>
    obtain rfl := Host.Outcome.next.inj h
    exact .inr (.inl ⟨nnn, rfl⟩)
  | ret => exact .inr (.inr (.inl rfl))
  | seImm | sneImm | seReg | sneReg | skp | sknp =>
    obtain rfl := Host.Outcome.next.inj h
    exact .inr (.inr (.inr (skipIf_pcFollows s _)))
  | ldB | storeRegs => exact .inr (.inr (.inr (storeAtI_pcFollows h)))
  | addI x => exact .inr (.inr (.inr (execAddI_pcFollows h)))
  | loadRegs x => exact .inr (.inr (.inr (execLoadRegs_pcFollows h)))
  | ldVxK x => exact .inr (.inr (.inr (execLdVxK_pcFollows h)))
  | _ =>
    obtain rfl := Host.Outcome.next.inj h
    exact .inr (.inr (.inr (.inr (.inl rfl))))

/-- The largest pc that follows a fetched word is 0xFFE + 4, so none of the sums wraps. -/
theorem PcFollows.pc_le (follows : PcFollows s t) (fetched : s.pc.toNat ≤ 0xFFE) : t.pc.toNat ≤ 0x10FE := by
  rcases follows with pc | pc | pc <;> rw [pc]
  · omega
  · bv_omega
  · bv_omega

/-- The largest pc of all is JP V0's, 0xFFF + 0xFF. -/
theorem exec_pc_le {i : Instr} (bounded : StackBounded s) (fetched : s.pc.toNat ≤ 0xFFE) (h : exec i s = .next t) :
    t.pc.toNat ≤ 0x10FE ∨ (i = .ret ∧ s.stack = []) := by
  rcases exec_pc_cases h with ⟨nnn, pc⟩ | ⟨nnn, pc⟩ | rfl | follows
  · rw [pc, zext12_toNat]
    omega
  · rw [pc, offsetTarget_toNat]
    omega
  · rcases execRet_cases s with ⟨top, rest, stack, e⟩ | ⟨empty, -⟩
    · obtain rfl := Host.Outcome.next.inj (e.symm.trans h)
      have returned := bounded top (stack ▸ List.mem_cons_self)
      exact .inl (returned.trans (by decide))
    · exact .inr ⟨rfl, empty⟩
  · exact .inl (follows.pc_le fetched)

/-- A step that fetches a word leaves pc bounded, but for a RET that underflows. -/
theorem step_pc_le (bounded : StackBounded s) (fetched : s.pc.toNat ≤ 0xFFE) (h : step s = .next t) :
    t.pc.toNat ≤ 0x10FE ∨ (decodeWord s.fetchWord = .ok .ret ∧ s.stack = []) := by
  rcases step_cases s with ⟨-, e⟩ | ⟨-, past, -⟩ | ⟨-, -, i, decodes, e⟩ | ⟨-, -, -, e⟩
  · obtain rfl := Host.Outcome.next.inj (e.symm.trans h)
    exact .inl (PcFollows.pc_le (.inl rfl) fetched)
  · exact absurd past (Nat.not_lt.mpr fetched)
  · refine (exec_pc_le bounded fetched (e.symm.trans h)).imp_right ?_
    rintro ⟨rfl, empty⟩
    exact ⟨decodes, empty⟩
  · obtain rfl := Host.Outcome.next.inj (e.symm.trans h)
    exact .inl (PcFollows.pc_le (.inr (.inl rfl)) fetched)

end

/-- Settles O57: the invariant and the bound of the next pc, each by the cases of a step. -/
theorem stepKeepsStackBounded : Obligations.StepKeepsStackBounded :=
  fun _ _ bounded h => ⟨step_keeps_stackBounded bounded h, fun _ fetched => step_pc_le bounded fetched h⟩

end Sys2Proof.Machine
end

section
/-! SUPPORT. The statements about boot and about every run (70_reset_and_hazards.md). -/

namespace Sys2Proof.Machine

/-! ### Loading a program (rule R191) -/

/-- A load fails whole or writes the image from 0x200. -/
theorem loadProgram_cases (bytes : List Byte) (s : State) :
    (3584 < bytes.length ∧ loadProgram bytes s = (.programTooLarge, s)) ∨
    (bytes.length ≤ 3584 ∧ loadProgram bytes s = (.ok, { s with mem := s.mem.writeBytes 0x200 bytes })) := by
  rcases Nat.lt_or_ge 3584 bytes.length with h | h
  · exact .inl ⟨h, if_pos h⟩
  · exact .inr ⟨h, if_neg (Nat.not_lt.mpr h)⟩

/-- Bytes outside the range that is written read as before. -/
theorem Memory.read_writeBytes_of_not_mem (m : Memory) (bs : List Byte) {a c : Nat}
    (h : .byte c ∉ bytesAt a bs.length) : (m.writeBytes a bs).read c = m.read c := by
  rw [mem_bytesAt] at h
  exact Memory.read_writeBytes_outside bs m a c (by omega)

theorem unchanged_writeBytes (s : State) (a : Nat) (bs : List Byte) :
    Unchanged (bytesAt a bs.length) s { s with mem := s.mem.writeBytes a bs } := by
  simpa [unchanged_iff] using fun c => Memory.read_writeBytes_of_not_mem s.mem bs (a := a) (c := c)

/-- Settles O3, by the two cases of a load, of which the image's length admits one. -/
theorem loadProgramCopiesOrFails : Obligations.LoadProgramCopiesOrFails := by
  intro bytes s
  rcases loadProgram_cases bytes s with ⟨large, failed⟩ | ⟨fits, copied⟩
  · exact ⟨fun fits => absurd large (Nat.not_lt.mpr fits), fun _ => failed⟩
  · refine ⟨fun _ => ⟨_, copied, fun k hk => ?_, unchanged_writeBytes s 0x200 bytes⟩,
      fun large => absurd large (Nat.not_lt.mpr fits)⟩
    exact Memory.read_writeBytes_inside bytes s.mem 0x200 k hk (by simp only [memSize]; omega)

/-! ### Initialisation (rule R190) -/

theorem initMachine_wf (font : Vector Byte 80) (gw : GlyphWrite) : (initMachine font gw).mem.wf :=
  Memory.writeBytes_wf font.toList [] glyphBase Memory.reset_wf

theorem initMachine_read_glyph (font : Vector Byte 80) (gw : GlyphWrite) (d : Fin 80) :
    (initMachine font gw).mem.read (0x050 + d.val) = font[d.val] := by
  have written := Memory.read_writeBytes_inside font.toList [] 0x050 d.val (by simp) (by simp [memSize])
  exact written.trans (Vector.getElem_toList _)

/-- The font is all that initialisation writes over the reset contents. -/
theorem initMachine_read_of_not_mem (font : Vector Byte 80) (gw : GlyphWrite) {a : Nat}
    (h : .byte a ∉ bytesAt 0x050 80) : (initMachine font gw).mem.read a = Memory.unlisted a := by
  refine Memory.read_writeBytes_of_not_mem [] font.toList ?_
  rwa [font.length_toList]

theorem unchanged_initMachine (font : Vector Byte 80) (gw : GlyphWrite) :
    Unchanged (.glyphWrite :: bytesAt 0x050 80) State.reset (initMachine font gw) := by
  intro p hp
  rw [List.mem_cons, not_or] at hp
  obtain ⟨notSetting, notGlyph⟩ := hp
  cases p with
  | byte a => exact initMachine_read_of_not_mem font gw notGlyph
  | glyphWrite => exact absurd rfl notSetting
  | _ => rfl

/-- The default font is what the glyph table reads as unwritten, so writing it lists nothing. -/
theorem writeBytes_standardFont : Memory.writeBytes [] glyphBase standardFont = [] := by
  refine Memory.writeBytes_unlisted standardFont glyphBase fun k hk => ?_
  have read := unlisted_glyph ⟨k, standardFont_length ▸ hk⟩
  exact (read.trans (getElem!_pos standardFont k hk)).symm

theorem initMachine_default {font : Vector Byte 80} (standard : font.toList = standardFont) :
    initMachine font .fault = State.reset := by
  rw [initMachine, standard, writeBytes_standardFont]
  rfl

/-- Settles O2: the font is written over the reset contents, and a read tells the glyph table from the rest. -/
theorem initMachineHoldsTheFont : Obligations.InitMachineHoldsTheFont := by
  refine ⟨fun font gw => ⟨initMachine_read_glyph font gw, fun a outside => ?_, rfl, unchanged_initMachine font gw,
    initMachine_wf font gw⟩, fun font => initMachine_default⟩
  rw [initMachine_read_of_not_mem font gw (by rw [mem_bytesAt]; omega)]
  exact Memory.unlisted_outside a (outside.imp_right And.left)

/-! ### Every run (rules R192, R193) -/

/-- After boot memory is what was written byte by byte, and the latch and the stack are as at reset. -/
theorem boot_invariants {font : Vector Byte 80} {gw : GlyphWrite} {image : List Byte} {s : State}
    (loaded : loadProgram image (initMachine font gw) = (.ok, s)) : s.mem.wf ∧ WaitLatchOk s ∧ StackBounded s := by
  rcases loadProgram_cases image (initMachine font gw) with ⟨-, failed⟩ | ⟨-, copied⟩
  · exact LoadResult.noConfusion (congrArg Prod.fst (loaded.symm.trans failed))
  · obtain rfl := congrArg Prod.snd (loaded.symm.trans copied)
    exact ⟨Memory.writeBytes_wf image _ 0x200 (initMachine_wf font gw), fun _ armed => Wait.noConfusion armed,
      List.forall_mem_nil _⟩

theorem hostCall_keeps_wf {c : HostCall} {s t : State} (wf : s.mem.wf) (h : hostCall c s = .next t) : t.mem.wf := by
  rcases hostCall_mem h with kept | ⟨bs, store⟩
  · exact kept ▸ wf
  · exact storeAtI_wf wf store

/-- Settles O59, by induction on the run: boot has the three invariants and every port call keeps each. -/
theorem reachableStatesHaveTheInvariants : Obligations.ReachableStatesHaveTheInvariants := by
  intro s reached
  induction reached with
  | boot font gw image s loaded => exact boot_invariants loaded
  | call c s t _ result ih =>
    obtain ⟨wf, latch, bounded⟩ := ih
    exact ⟨hostCall_keeps_wf wf result, portCallsKeepWaitLatch c s t latch result,
      hostCall_keeps_stackBounded bounded result⟩

end Sys2Proof.Machine
end
